-- ==== Sys2Proof/Word.lean ====
section
/-! DEFINITION. Words and bytes (R8, R11): the two widths the hardware has. -/

namespace Sys2Proof

/-- A register, memory word, address or instruction word: 16 bits, arithmetic modulo 2^16 (R11, R40). -/
abbrev Word := BitVec 16

/-- A host byte (R11, R193, R194). -/
abbrev Byte := BitVec 8

end Sys2Proof
end

