-- ==== Sys2Proof/Syntax.lean ====
section
/-! DEFINITION. The instructions: one constructor per row of spec/opcode_table.json, each with the operand fields of
R71 that the core examines (R76: the bits it does not examine are no part of an instruction). -/

namespace Sys2Proof

/-- A general-register number, R0 to R7 (R21, R22, D28). -/
abbrev Reg := Fin 8

/-- The 16 opcodes by name (R75). JSR and JSRR share one (C6). -/
inductive Opcode where
  | br | add | ld | st | jsr | and | ldr | str | rti | not | ldi | sti | jmp | res | lea | trap
deriving DecidableEq, Repr

/-- The rows of spec/opcode_table.json, in its order. -/
inductive Instr where
  /-- ADD, register form (R110). -/
  | addReg (dr sr1 sr2 : Reg)
  /-- ADD, immediate form (R111). -/
  | addImm (dr sr1 : Reg) (imm5 : BitVec 5)
  /-- AND, register form (R112). -/
  | andReg (dr sr1 sr2 : Reg)
  /-- AND, immediate form (R113). -/
  | andImm (dr sr1 : Reg) (imm5 : BitVec 5)
  /-- NOT (R114). -/
  | not (dr sr : Reg)
  /-- BR (R120): `mask` is n, z, p, bit 2 down to bit 0. -/
  | br (mask : BitVec 3) (offset9 : BitVec 9)
  /-- JMP; RET is JMP R7 (R121). -/
  | jmp (baseR : Reg)
  /-- JSR (R122). -/
  | jsr (offset11 : BitVec 11)
  /-- JSRR (R123). -/
  | jsrr (baseR : Reg)
  /-- LD (R130). -/
  | ld (dr : Reg) (offset9 : BitVec 9)
  /-- LDI (R131). -/
  | ldi (dr : Reg) (offset9 : BitVec 9)
  /-- LDR (R132). -/
  | ldr (dr baseR : Reg) (offset6 : BitVec 6)
  /-- LEA (R133). -/
  | lea (dr : Reg) (offset9 : BitVec 9)
  /-- ST (R134). -/
  | st (sr : Reg) (offset9 : BitVec 9)
  /-- STI (R135). -/
  | sti (sr : Reg) (offset9 : BitVec 9)
  /-- STR (R136). -/
  | str (sr baseR : Reg) (offset6 : BitVec 6)
  /-- TRAP (R150). -/
  | trap (vector : BitVec 8)
  /-- RTI, reserved (R170). -/
  | rti
  /-- RES, reserved (R171). -/
  | res
deriving DecidableEq, Repr

/-- One row of spec/opcode_table.json: a word belongs to it when its masked bits are the pattern. -/
structure TableRow where
  mnemonic : String
  mask : Word
  pattern : Word
deriving DecidableEq, Repr

end Sys2Proof
end

