-- ==== Sys2Proof/Decode.lean ====
section
/-! DEFINITION. Decoding (R70 to R80): total on 16-bit words, no encoding refused (R77, R79). After it the encoder,
written from the same formats (R72), and the rows of spec/opcode_table.json. -/

namespace Sys2Proof

/-- `w[lo+n-1:lo]` (R10). -/
def field (w : Word) (lo n : Nat) : BitVec n := w.extractLsb' lo n

/-- The 3-bit register field whose low bit is `lo`: field value k selects Rk (R21, R71). -/
def regField (w : Word) (lo : Nat) : Reg := (field w lo 3).toFin

/-- OPCODE_MAP, from the number to the opcode (R75, D1; log entry 8). -/
def Opcode.ofNibble (n : BitVec 4) : Opcode :=
  match n with
  | 0x0#4 => .br
  | 0x1#4 => .add
  | 0x2#4 => .ld
  | 0x3#4 => .st
  | 0x4#4 => .jsr
  | 0x5#4 => .and
  | 0x6#4 => .ldr
  | 0x7#4 => .str
  | 0x8#4 => .rti
  | 0x9#4 => .not
  | 0xA#4 => .ldi
  | 0xB#4 => .sti
  | 0xC#4 => .jmp
  | 0xD#4 => .res
  | 0xE#4 => .lea
  | _ => .trap

/-- OPCODE_MAP, from the opcode to its number (R75, D1; log entry 8). -/
def Opcode.nibble : Opcode → BitVec 4
  | .br => 0x0#4
  | .add => 0x1#4
  | .ld => 0x2#4
  | .st => 0x3#4
  | .jsr => 0x4#4
  | .and => 0x5#4
  | .ldr => 0x6#4
  | .str => 0x7#4
  | .rti => 0x8#4
  | .not => 0x9#4
  | .ldi => 0xA#4
  | .sti => 0xB#4
  | .jmp => 0xC#4
  | .res => 0xD#4
  | .lea => 0xE#4
  | .trap => 0xF#4

/-- The two maps are inverse, so the last arm of `Opcode.ofNibble` is 0xF and nothing else. -/
theorem Opcode.nibble_ofNibble : ∀ n : BitVec 4, (Opcode.ofNibble n).nibble = n := by decide

/-- The fetched word's opcode, `instr[15:12]` (R70). -/
def opcodeOf (w : Word) : Opcode := Opcode.ofNibble (field w 12 4)

/-- The instruction a word encodes: the opcode, and for ADD, AND and JSR one further bit (R71, R75, R77). -/
def decode (w : Word) : Instr :=
  match opcodeOf w with
  | .br => .br (field w 9 3) (field w 0 9)
  | .add =>
    if field w 5 1 = 1#1 then .addImm (regField w 9) (regField w 6) (field w 0 5)
    else .addReg (regField w 9) (regField w 6) (regField w 0)
  | .ld => .ld (regField w 9) (field w 0 9)
  | .st => .st (regField w 9) (field w 0 9)
  | .jsr => if field w 11 1 = 1#1 then .jsr (field w 0 11) else .jsrr (regField w 6)
  | .and =>
    if field w 5 1 = 1#1 then .andImm (regField w 9) (regField w 6) (field w 0 5)
    else .andReg (regField w 9) (regField w 6) (regField w 0)
  | .ldr => .ldr (regField w 9) (regField w 6) (field w 0 6)
  | .str => .str (regField w 9) (regField w 6) (field w 0 6)
  | .rti => .rti
  | .not => .not (regField w 9) (regField w 6)
  | .ldi => .ldi (regField w 9) (field w 0 9)
  | .sti => .sti (regField w 9) (field w 0 9)
  | .jmp => .jmp (regField w 6)
  | .res => .res
  | .lea => .lea (regField w 9) (field w 0 9)
  | .trap => .trap (field w 0 8)

/-- The three bits of a register field (R71). -/
def regBits (r : Reg) : BitVec 3 := BitVec.ofFin r

/-- Format OP-R (R72), the unexamined bits 4:3 written 00 (log entry 10). -/
def encodeOpR (op : BitVec 4) (dr sr1 sr2 : Reg) : Word :=
  op ++ regBits dr ++ regBits sr1 ++ 0#1 ++ 0#2 ++ regBits sr2

/-- Format OP-I (R72). -/
def encodeOpI (op : BitVec 4) (dr sr1 : Reg) (imm5 : BitVec 5) : Word :=
  op ++ regBits dr ++ regBits sr1 ++ 1#1 ++ imm5

/-- Formats BR and PC9 (R72): three bits, then PCoffset9. -/
def encodePc9 (op : BitVec 4) (top : BitVec 3) (offset9 : BitVec 9) : Word :=
  op ++ top ++ offset9

/-- Formats BASE6, NOT, JMP and JSRR (R72): three bits, a register, six bits. -/
def encodeBase6 (op : BitVec 4) (top : BitVec 3) (baseR : Reg) (low : BitVec 6) : Word :=
  op ++ top ++ regBits baseR ++ low

/-- Format JSR (R72). -/
def encodeJsr (op : BitVec 4) (offset11 : BitVec 11) : Word := op ++ 1#1 ++ offset11

/-- Format TRAP (R72), the unexamined bits 11:8 written 0000 (log entry 10). -/
def encodeTrap (op : BitVec 4) (vector : BitVec 8) : Word := op ++ 0#4 ++ vector

/-- Format NONE (R72), the unexamined bits 11:0 written 0 (log entry 10). -/
def encodeNone (op : BitVec 4) : Word := op ++ 0#12

/-- A word of each instruction (R72, R75). Bits the core does not examine are written as R81 writes them: NOT bits 5:0
are 111111, every other one 0 (log entry 10). -/
def encode : Instr → Word
  | .addReg dr sr1 sr2 => encodeOpR Opcode.add.nibble dr sr1 sr2
  | .addImm dr sr1 imm5 => encodeOpI Opcode.add.nibble dr sr1 imm5
  | .andReg dr sr1 sr2 => encodeOpR Opcode.and.nibble dr sr1 sr2
  | .andImm dr sr1 imm5 => encodeOpI Opcode.and.nibble dr sr1 imm5
  | .not dr sr => encodeBase6 Opcode.not.nibble (regBits dr) sr 0x3F#6
  | .br mask offset9 => encodePc9 Opcode.br.nibble mask offset9
  | .jmp baseR => encodeBase6 Opcode.jmp.nibble 0#3 baseR 0#6
  | .jsr offset11 => encodeJsr Opcode.jsr.nibble offset11
  | .jsrr baseR => encodeBase6 Opcode.jsr.nibble 0#3 baseR 0#6
  | .ld dr offset9 => encodePc9 Opcode.ld.nibble (regBits dr) offset9
  | .ldi dr offset9 => encodePc9 Opcode.ldi.nibble (regBits dr) offset9
  | .ldr dr baseR offset6 => encodeBase6 Opcode.ldr.nibble (regBits dr) baseR offset6
  | .lea dr offset9 => encodePc9 Opcode.lea.nibble (regBits dr) offset9
  | .st sr offset9 => encodePc9 Opcode.st.nibble (regBits sr) offset9
  | .sti sr offset9 => encodePc9 Opcode.sti.nibble (regBits sr) offset9
  | .str sr baseR offset6 => encodeBase6 Opcode.str.nibble (regBits sr) baseR offset6
  | .trap vector => encodeTrap Opcode.trap.nibble vector
  | .rti => encodeNone Opcode.rti.nibble
  | .res => encodeNone Opcode.res.nibble

/-- The bits of its word that an instruction's handler examines (R71, R76): 1 where examined. -/
def Instr.examined : Instr → Word
  | .addReg _ _ _ | .andReg _ _ _ => 0xFFE7
  | .addImm _ _ _ | .andImm _ _ _ => 0xFFFF
  | .not _ _ => 0xFFC0
  | .br _ _ => 0xFFFF
  | .jmp _ => 0xF1C0
  | .jsr _ => 0xFFFF
  | .jsrr _ => 0xF9C0
  | .ld _ _ | .ldi _ _ | .lea _ _ | .st _ _ | .sti _ _ => 0xFFFF
  | .ldr _ _ _ | .str _ _ _ => 0xFFFF
  | .trap _ => 0xF0FF
  | .rti | .res => 0xF000

/-- The row of spec/opcode_table.json an instruction stands for: mnemonic, "mask" and "match". -/
def Instr.tableRow : Instr → TableRow
  | .addReg _ _ _ => ⟨"ADD", 0xF020, 0x1000⟩
  | .addImm _ _ _ => ⟨"ADD", 0xF020, 0x1020⟩
  | .andReg _ _ _ => ⟨"AND", 0xF020, 0x5000⟩
  | .andImm _ _ _ => ⟨"AND", 0xF020, 0x5020⟩
  | .not _ _ => ⟨"NOT", 0xF000, 0x9000⟩
  | .br _ _ => ⟨"BR", 0xF000, 0x0000⟩
  | .jmp _ => ⟨"JMP", 0xF000, 0xC000⟩
  | .jsr _ => ⟨"JSR", 0xF800, 0x4800⟩
  | .jsrr _ => ⟨"JSRR", 0xF800, 0x4000⟩
  | .ld _ _ => ⟨"LD", 0xF000, 0x2000⟩
  | .ldi _ _ => ⟨"LDI", 0xF000, 0xA000⟩
  | .ldr _ _ _ => ⟨"LDR", 0xF000, 0x6000⟩
  | .lea _ _ => ⟨"LEA", 0xF000, 0xE000⟩
  | .st _ _ => ⟨"ST", 0xF000, 0x3000⟩
  | .sti _ _ => ⟨"STI", 0xF000, 0xB000⟩
  | .str _ _ _ => ⟨"STR", 0xF000, 0x7000⟩
  | .trap _ => ⟨"TRAP", 0xF000, 0xF000⟩
  | .rti => ⟨"RTI", 0xF000, 0x8000⟩
  | .res => ⟨"RES", 0xF000, 0xD000⟩

/-- spec/opcode_table.json, its 19 rows in order, as masks and patterns. -/
def opcodeTable : List TableRow :=
  [⟨"ADD", 0xF020, 0x1000⟩, ⟨"ADD", 0xF020, 0x1020⟩, ⟨"AND", 0xF020, 0x5000⟩, ⟨"AND", 0xF020, 0x5020⟩,
   ⟨"NOT", 0xF000, 0x9000⟩, ⟨"BR", 0xF000, 0x0000⟩, ⟨"JMP", 0xF000, 0xC000⟩, ⟨"JSR", 0xF800, 0x4800⟩,
   ⟨"JSRR", 0xF800, 0x4000⟩, ⟨"LD", 0xF000, 0x2000⟩, ⟨"LDI", 0xF000, 0xA000⟩, ⟨"LDR", 0xF000, 0x6000⟩,
   ⟨"LEA", 0xF000, 0xE000⟩, ⟨"ST", 0xF000, 0x3000⟩, ⟨"STI", 0xF000, 0xB000⟩, ⟨"STR", 0xF000, 0x7000⟩,
   ⟨"TRAP", 0xF000, 0xF000⟩, ⟨"RTI", 0xF000, 0x8000⟩, ⟨"RES", 0xF000, 0xD000⟩]

/-- The word carries the row's fixed bits. -/
def TableRow.admits (r : TableRow) (w : Word) : Bool := decide (w &&& r.mask = r.pattern)

/-- The word of an instruction whose table bits are `w`: bits above `nbits` are 0. -/
def tableWord (nbits w : Nat) : Word := BitVec.ofNat 16 (w % 2 ^ nbits)

/-- The decoder's answer for the table's bits of an instruction: every instruction is one 16-bit word (R70), so a
longer bit count is refused. -/
def decodeTableWord (nbits w : Nat) : Option Instr :=
  if nbits ≤ 16 then some (decode (tableWord nbits w)) else none

end Sys2Proof
end

