-- ==== Sys2Proof/Config.lean ====
section
/-! DEFINITION. The named parameters of the core (R9): the type `Config` of those a cycle reads, which a state
carries so that a statement about every state is a statement about every value of each parameter, and the two
host-facing exit statuses, which no cycle reads and no value of which is chosen. -/

namespace Sys2Proof

/-- PC_BOUND_MODE, the reading of the memory bound (R91, D6). OPEN. -/
inductive PcBoundMode where
  | wrap
  | stopAtTop
  | stopAfterTop
deriving DecidableEq, Repr

/-- RESERVED_OP_POLICY, what RTI and RES do (R172, D7). -/
inductive ReservedOpPolicy where
  | fault
  | noOp
deriving DecidableEq, Repr

/-- KBSR_SET_MODE, how a nonzero byte sets the status word (R45, D9). -/
inductive KbsrSetMode where
  | assign
  | orHigh
deriving DecidableEq, Repr

/-- INPUT_END, what a read does when the host input is exhausted (R193, D11). OPEN. -/
inductive InputEnd where
  | fail
  | stall
deriving DecidableEq, Repr

/-- The parameters a cycle reads (R9). Log entry 2: a state carries them and no step writes them. -/
structure Config where
  /-- KBSR_ADDR (R48, D4). -/
  kbsrAddr : Word
  /-- KBDR_ADDR (R48, D4), distinct from KBSR_ADDR (`Config.WellFormed`). -/
  kbdrAddr : Word
  /-- PC_BOUND_MODE (R91, D6). -/
  pcBound : PcBoundMode
  /-- RESERVED_OP_POLICY (R172, D7). -/
  reservedOp : ReservedOpPolicy
  /-- KBSR_SET_MODE (R45, D9). -/
  kbsrSet : KbsrSetMode
  /-- INPUT_END (R193, D11). -/
  inputEnd : InputEnd
  /-- IN_PROMPT (R155, D12). -/
  inPrompt : List Byte
  /-- HALT_MESSAGE (R157, D13). -/
  haltMessage : List Byte
deriving DecidableEq, Repr

/-- A non-zero integer, the type of the two OPEN exit statuses (R9): `above n` is n + 1, `below n` is -(n + 1). -/
inductive NonZero where
  | above (n : Nat)
  | below (n : Nat)
deriving DecidableEq, Repr, Inhabited

/-- The integer a `NonZero` stands for. -/
def NonZero.toInt : NonZero → Int
  | .above n => (n : Int) + 1
  | .below n => -(n : Int) - 1

/-- HALT_EXIT_STATUS (R195, D13): OPEN, some non-zero integer. Log entry 7. -/
opaque Config.haltExitStatus : NonZero

/-- ERROR_EXIT_STATUS (R195, D25): OPEN, some non-zero integer. Log entry 7. -/
opaque Config.errorExitStatus : NonZero

end Sys2Proof
end

