-- ==== Sys2Proof/Machine/Parameters.lean ====
section
/-! DEFINITION. The parameter values of R9: the fixed FLAG_VALUES and TRAP_VECTORS, and the defaults. -/

namespace Sys2Proof.Machine

/-- POS, bit 0 (R27, D3; log entry 8). -/
def flagPos : Word := 0x0001

/-- ZRO, bit 1 (R27, D3; log entry 8). -/
def flagZro : Word := 0x0002

/-- NEG, bit 2 (R27, D3; log entry 8). -/
def flagNeg : Word := 0x0004

/-- GETC (R151, D2; log entry 8). -/
def vectorGetc : BitVec 8 := 0x20

/-- OUT (R151, D2; log entry 8). -/
def vectorOut : BitVec 8 := 0x21

/-- PUTS (R151, D2; log entry 8). -/
def vectorPuts : BitVec 8 := 0x22

/-- IN (R151, D2; log entry 8). -/
def vectorIn : BitVec 8 := 0x23

/-- PUTSP (R151, D2; log entry 8). -/
def vectorPutsp : BitVec 8 := 0x24

/-- HALT (R151, D2; log entry 8). -/
def vectorHalt : BitVec 8 := 0x25

/-- The defaults of R9; for the OPEN parameters its simulator defaults (log entries 3 and 4) and the empty prompt that
spec/95_test_vectors.md takes (log entry 5). -/
def defaultConfig : Config where
  kbsrAddr := 0xFE00
  kbdrAddr := 0xFE02
  pcBound := .wrap
  reservedOp := .fault
  kbsrSet := .assign
  inputEnd := .fail
  inPrompt := []
  haltMessage := []

/-- The origin an image typically has (R51, R212), where `State.reset` starts (log entry 6). -/
def typicalOrigin : Word := 0x3000

end Sys2Proof.Machine
end

