-- ==== Sys2Proof/Machine/State.lean ====
section
/-! DEFINITION. The machine's state (spec/10_state.md), as plain data, the reasons a step has no next state, and the
state after reset (R36, R210). -/

namespace Sys2Proof.Machine

/-- The 65536 words of memory (R40), listed as bytes at numbers 2a (bits 15:8 of word a) and 2a + 1 (bits 7:0), in the
image's byte order (R51); a byte not listed is 0. Log entry 1. -/
abbrev Memory := List Host.Cell

/-- The errors of R180. Errors 2 to 4 are raised in a run; 1 is the register accessor's only (R24); 5 to 7 refuse a
launch (R211). -/
inductive Error where
  | outOfBounds (index : Nat)
  | keyboardInputError
  | illegalTrap (vector : BitVec 8)
  | illegalOpcode (opcode : BitVec 4)
  | notEnoughArguments
  | incorrectFileName (path cause : String)
  | badFile
deriving DecidableEq, Repr

/-- The run status (R34, R90). -/
inductive Status where
  | running
  | halted
  | finished
  | errored (e : Error)
deriving DecidableEq, Repr

/-- Why a step has no next state. No error of the spec is one: a raised error is a next state whose status is
`errored` (R182). -/
inductive Fault where
  /-- Raised by `step` when the status is not Running: no cycle runs from a terminal status (R34, R98). Safe: the
  hardware has no cycle there. Log entry 11. -/
  | runEnded
  /-- Raised by `inByte` when the host input is exhausted under INPUT_END = Stall: no transition, stuck for good (R99,
  R193). Safe. Log entry 4. -/
  | inputStall
  /-- Raised by `scan` when PUTS or PUTSP has used up its bound: the cycle never completes (R154, R156,
  spec/93_implementation_defined.md row 21). Never reached, the input being a finite list. Safe. Log entry 9. -/
  | scanUnending
deriving DecidableEq, Repr

/-- Why a step refuses an instruction. -/
inductive Refusal where
  /-- Raised by an arm of `exec` whose instruction has no meaning yet; there is none. Safe. -/
  | notModelled (mnemonic : String)
deriving DecidableEq, Repr

/-- One step's answer. -/
abbrev Outcome := Host.Outcome

/-- The state (R20, R33 to R35). -/
structure State where
  /-- R0 to R7 (R22), slots 0 to 7. -/
  regs : Vector Word 8
  /-- PC (R25), slot 8. -/
  pc : Word
  /-- COND (R26), slot 9. -/
  cond : Word
  /-- COUNT (R31), slot 10, unused. -/
  count : Word
  /-- Memory, the two keyboard words included (R33). -/
  mem : Memory
  /-- The run status (R34). -/
  status : Status
  /-- Host input not yet consumed (R35, R193). -/
  inp : List Byte
  /-- Host output emitted, in order (R35, R194). -/
  out : List Byte
  /-- How many bytes of `out` are flushed (R194). -/
  flushed : Nat
  /-- The current fetch was from 0xFFFF and no handler has written PC since; used under StopAfterTop only (R35). -/
  topCarry : Bool
  /-- The parameters (R9), the model's own field: log entry 2. -/
  cfg : Config
deriving DecidableEq, Repr

/-- The machine after the reset sequence (R36, R210) with nothing loaded but the typical origin, no host input and the
default parameters: log entries 2 to 6. `launch` is reset with an image. -/
def State.reset : State where
  regs := Vector.replicate 8 0
  pc := typicalOrigin
  cond := flagZro
  count := 0
  mem := []
  status := .running
  inp := []
  out := []
  flushed := 0
  topCarry := false
  cfg := defaultConfig

end Sys2Proof.Machine
end

