-- ==== Sys2Proof/Machine/Ops.lean ====
section
/-! DEFINITION. The named operations over memory, registers and the host (spec/20_memory.md, spec/60_exceptions.md), and
the shared ways a cycle ends: raising an error, halting, entering a trap and returning from one. -/

namespace Sys2Proof.Machine

/-! ### Memory -/

/-- What a byte of memory that nothing has written reads as: reset leaves every word 0x0000 (R36, R210). -/
def Memory.unlisted : Byte := 0

/-- The byte at a number. -/
def Memory.readByte : Memory → Nat → Byte
  | [], _ => Memory.unlisted
  | (a, b) :: m, k => if a = k then b else Memory.readByte m k

/-- The memory without a byte. -/
def Memory.eraseByte (m : Memory) (k : Nat) : Memory := m.filter (fun c => c.1 != k)

/-- A byte put in its place. -/
def Memory.insertByte : Memory → Nat → Byte → Memory
  | [], k, v => [(k, v)]
  | (a, b) :: m, k, v => if k < a then (k, v) :: (a, b) :: m else (a, b) :: Memory.insertByte m k v

/-- One byte written, keeping the canonical form: writing what an unlisted byte reads as removes the entry. -/
def Memory.writeByte (m : Memory) (k : Nat) (v : Byte) : Memory :=
  if v = Memory.unlisted then m.eraseByte k else (m.eraseByte k).insertByte k v

/-- `M[a]` (R13): the word at an address, no side effect. -/
def Memory.read (m : Memory) (a : Word) : Word := m.readByte (2 * a.toNat) ++ m.readByte (2 * a.toNat + 1)

/-- `M[a] <- v` (R13, R43). -/
def Memory.write (m : Memory) (a v : Word) : Memory :=
  (m.writeByte (2 * a.toNat) (v.extractLsb' 8 8)).writeByte (2 * a.toNat + 1) (v.extractLsb' 0 8)

/-- The canonical form: numbers strictly rising and inside the 65536 words, no entry equal to an unlisted byte. -/
abbrev Memory.wf (m : Memory) : Prop :=
  m.Pairwise (fun c d => c.1 < d.1) ∧ ∀ c ∈ m, c.1 < 131072 ∧ c.2 ≠ Memory.unlisted

/-- `M[a]` of a state. -/
def State.word (s : State) (a : Word) : Word := s.mem.read a

/-- `MemWrite(a, 1, v)` (R14, R43): a plain store at every address, the device words included; always succeeds. -/
def State.memWrite (s : State) (a v : Word) : State := { s with mem := s.mem.write a v }

/-! ### Registers -/

/-- `x[i]` (R13). -/
def State.reg (s : State) (r : Reg) : Word := s.regs.get r

/-- `x[i] <- v` (R13). None of R0 to R7 is hardwired (R22). -/
def State.setReg (s : State) (r : Reg) (v : Word) : State := { s with regs := s.regs.set r.val v r.isLt }

/-- `get_register(idx)` over the eleven slots (R21, R23): 0 to 7 are R0 to R7, 8 is PC, 9 is COND, 10 is COUNT (D5). -/
def State.getSlot (s : State) (idx : Nat) : Except Error Word :=
  if h : idx < 8 then .ok (s.reg ⟨idx, h⟩)
  else if idx = 8 then .ok s.pc
  else if idx = 9 then .ok s.cond
  else if idx = 10 then .ok s.count
  else .error (.outOfBounds idx)

/-- `set_register(idx, v)` (R21, R23): a plain store to the slot; a failing call changes nothing. Log entry 12. -/
def State.setSlot (s : State) (idx : Nat) (v : Word) : Except Error State :=
  if h : idx < 8 then .ok (s.setReg ⟨idx, h⟩ v)
  else if idx = 8 then .ok { s with pc := v }
  else if idx = 9 then .ok { s with cond := v }
  else if idx = 10 then .ok { s with count := v }
  else .error (.outOfBounds idx)

/-- A handler's `pc <- target` (R95): under StopAfterTop it clears topCarry. -/
def State.setPc (s : State) (target : Word) : State :=
  { s with pc := target, topCarry := if s.cfg.pcBound = .stopAfterTop then false else s.topCarry }

/-! ### The ends of a cycle -/

/-- What an access that may end the cycle answers. -/
inductive Access (α : Type) where
  /-- The access completed with this value and state. -/
  | ok (value : α) (s : State)
  /-- The cycle ended here, the terminal status already set (R16). -/
  | ended (s : State)
  /-- The cycle has no next state (R99). -/
  | stuck (f : Fault)

/-- One access after another inside an access. -/
def Access.bind {α β : Type} (x : Access α) (f : α → State → Access β) : Access β :=
  match x with
  | .ok v s => f v s
  | .ended s => .ended s
  | .stuck r => .stuck r

/-- The rest of the cycle after an access: nothing happens after a raise (R16, R182). -/
def Access.andThen {α : Type} (x : Access α) (k : α → State → Outcome State Fault Refusal) :
    Outcome State Fault Refusal :=
  match x with
  | .ok v s => k v s
  | .ended s => .next s
  | .stuck r => .fault r

/-- `raise e` (R16, R182): the status becomes Errored(e) and everything done before stays. There is no handler, vector
or saved state, so this is all of taking an error. -/
def State.raise (s : State) (e : Error) : State := { s with status := .errored e }

/-- `halt()` (R16): the status becomes Halted. -/
def State.halt (s : State) : State := { s with status := .halted }

/-- Trap entry (R150, R186): R7 <- PC, the address after the TRAP; nothing else is saved and no mode changes. -/
def State.trapEntry (s : State) : State := s.setReg 7 s.pc

/-- Trap return (R160, R187): implicit, nothing restored; the next cycle fetches at PC. -/
def trapReturn (s : State) : Outcome State Fault Refusal := .next s

/-! ### The host -/

/-- `InByte()` (R193): the next input byte; at the end of the input KeyboardInputError or no transition, by INPUT_END. -/
def inByte (s : State) : Access Byte :=
  match s.inp with
  | b :: rest => .ok b { s with inp := rest }
  | [] =>
    match s.cfg.inputEnd with
    | .fail => .ended (s.raise .keyboardInputError)
    | .stall => .stuck .inputStall

/-- `OutByte(b)` (R194). -/
def State.outByte (s : State) (b : Byte) : State := { s with out := s.out ++ [b] }

/-- `OutByte` of each byte in turn (R155, R157). -/
def State.outBytes (s : State) (bs : List Byte) : State := { s with out := s.out ++ bs }

/-- `Flush()` (R194). -/
def State.flush (s : State) : State := { s with flushed := s.out.length }

/-! ### The keyboard -/

/-- What a poll that read a nonzero byte leaves in KBSR, by KBSR_SET_MODE (R45, D9). -/
def kbsrSetValue (mode : KbsrSetMode) (old : Word) : Word :=
  match mode with
  | .assign => 0x8000
  | .orHigh => old ||| 0x8000

/-- What a poll does with its byte (R45). -/
def State.latchKey (s : State) (b : Byte) : State :=
  if b ≠ 0 then
    (s.memWrite s.cfg.kbsrAddr (kbsrSetValue s.cfg.kbsrSet (s.word s.cfg.kbsrAddr))).memWrite
      s.cfg.kbdrAddr (b.setWidth 16)
  else s.memWrite s.cfg.kbsrAddr 0

/-- `KeyboardPoll()` (R45): a failing read changes neither word. -/
def keyboardPoll (s : State) : Access Unit := (inByte s).bind fun b s1 => .ok () (s1.latchKey b)

/-- `MemRead(a, 1)` (R14, R44): a read of KBSR_ADDR polls first, every other read has no side effect. -/
def memRead (a : Word) (s : State) : Access Word :=
  if a = s.cfg.kbsrAddr then (keyboardPoll s).bind fun _ s1 => .ok (s1.word a) s1
  else .ok (s.word a) s

end Sys2Proof.Machine
end

