-- ==== Sys2Proof/Machine/Operands.lean ====
section
/-! DEFINITION. Operand assembly and effective addresses (R12, R73, R74, R137). -/

namespace Sys2Proof.Machine

/-- `sext_N(f)` (R12, R73, C4). -/
def sext {n : Nat} (f : BitVec n) : Word := f.signExtend 16

/-- `zext_16(b)` (R12). -/
def zext {n : Nat} (f : BitVec n) : Word := f.setWidth 16

/-- PC-relative: `pc + sext(offset)`, with the incremented pc, modulo 2^16 (R41, R137). -/
def pcRelative {n : Nat} (s : State) (offset : BitVec n) : Word := s.pc + sext offset

/-- Base plus offset: `x[BaseR] + sext_6(offset6)` (R137); the base register is not modified. -/
def basePlusOffset (s : State) (baseR : Reg) (offset6 : BitVec 6) : Word := s.reg baseR + sext offset6

/-- Bits 7:0 of a word. -/
def lowByte (w : Word) : Byte := w.extractLsb' 0 8

/-- Bits 15:8 of a word. -/
def highByte (w : Word) : Byte := w.extractLsb' 8 8

end Sys2Proof.Machine
end

