-- ==== Sys2Proof/Machine/Flags.lean ====
section
/-! DEFINITION. The condition flags (R26 to R29): how COND is set and how BR tests it. -/

namespace Sys2Proof.Machine

/-- The flag of a value (R28): ZRO if 0, NEG if bit 15 is set, else POS. -/
def flagOf (v : Word) : Word :=
  if v = 0 then flagZro else if v.getLsbD 15 then flagNeg else flagPos

/-- `setcc(v)` (R28). -/
def State.setcc (s : State) (v : Word) : State := { s with cond := flagOf v }

/-- `update_flags(idx)` over the slots (R28): fails with OutOfBounds, nothing changed, when idx >= 11. -/
def State.updateFlags (s : State) (idx : Nat) : Except Error State :=
  match s.getSlot idx with
  | .ok v => .ok (s.setcc v)
  | .error e => .error e

/-- `x[DR] <- v; setcc(v)`: how every instruction that writes a result ends (R110 to R114, R130 to R133, R155). -/
def State.writeResult (s : State) (dr : Reg) (v : Word) : State := (s.setReg dr v).setcc v

/-- BR's test (R120): `(zext_16(mask) & cond) != 0`. -/
def branchTaken (mask : BitVec 3) (s : State) : Bool := decide (zext mask &&& s.cond ≠ 0)

end Sys2Proof.Machine
end

