-- ==== Sys2Proof/Machine/Control.lean ====
section
/-! DEFINITION. BR, JMP, JSR, JSRR (spec/42_control.md). `pc` already holds the fetch address plus 1. -/

namespace Sys2Proof.Machine

/-- BR (R120): a taken branch writes PC, one not taken writes nothing. -/
def execBr (mask : BitVec 3) (offset9 : BitVec 9) (s : State) : Outcome State Fault Refusal :=
  .next (if branchTaken mask s then s.setPc (pcRelative s offset9) else s)

/-- JMP (R121); RET is JMP R7. -/
def execJmp (baseR : Reg) (s : State) : Outcome State Fault Refusal :=
  .next (s.setPc (s.reg baseR))

/-- JSR (R122): R7 <- pc, then PC-relative to the same pc. -/
def execJsr (offset11 : BitVec 11) (s : State) : Outcome State Fault Refusal :=
  .next ((s.setReg 7 s.pc).setPc (pcRelative s offset11))

/-- JSRR (R123): R7 <- pc first; BaseR is read after that write, so JSRR R7 falls through. -/
def execJsrr (baseR : Reg) (s : State) : Outcome State Fault Refusal :=
  let linked := s.setReg 7 s.pc
  .next (linked.setPc (linked.reg baseR))

end Sys2Proof.Machine
end

