-- ==== Sys2Proof/Machine/LoadStore.lean ====
section
/-! DEFINITION. LD, LDI, LDR, LEA, ST, STI, STR (spec/43_load_store.md). A read of KBSR_ADDR polls the keyboard and may
raise KeyboardInputError, the destination and COND then unchanged. -/

namespace Sys2Proof.Machine

/-- LD (R130). -/
def execLd (dr : Reg) (offset9 : BitVec 9) (s : State) : Outcome State Fault Refusal :=
  (memRead (pcRelative s offset9) s).andThen fun v s1 => .next (s1.writeResult dr v)

/-- LDI (R131): the pointer read, then the data read. -/
def execLdi (dr : Reg) (offset9 : BitVec 9) (s : State) : Outcome State Fault Refusal :=
  ((memRead (pcRelative s offset9) s).bind memRead).andThen fun v s1 => .next (s1.writeResult dr v)

/-- LDR (R132). -/
def execLdr (dr baseR : Reg) (offset6 : BitVec 6) (s : State) : Outcome State Fault Refusal :=
  (memRead (basePlusOffset s baseR offset6) s).andThen fun v s1 => .next (s1.writeResult dr v)

/-- LEA (R133): no memory access, so no poll; COND is set. -/
def execLea (dr : Reg) (offset9 : BitVec 9) (s : State) : Outcome State Fault Refusal :=
  .next (s.writeResult dr (pcRelative s offset9))

/-- ST (R134). -/
def execSt (sr : Reg) (offset9 : BitVec 9) (s : State) : Outcome State Fault Refusal :=
  .next (s.memWrite (pcRelative s offset9) (s.reg sr))

/-- STI (R135): the pointer read polls at KBSR_ADDR; the store never does. -/
def execSti (sr : Reg) (offset9 : BitVec 9) (s : State) : Outcome State Fault Refusal :=
  (memRead (pcRelative s offset9) s).andThen fun p s1 => .next (s1.memWrite p (s1.reg sr))

/-- STR (R136). -/
def execStr (sr baseR : Reg) (offset6 : BitVec 6) (s : State) : Outcome State Fault Refusal :=
  .next (s.memWrite (basePlusOffset s baseR offset6) (s.reg sr))

end Sys2Proof.Machine
end

