-- ==== Sys2Proof/Machine/Operate.lean ====
section
/-! DEFINITION. ADD, AND, NOT (spec/41_operate.md). -/

namespace Sys2Proof.Machine

/-- ADD, register form (R110, R115). -/
def execAddReg (dr sr1 sr2 : Reg) (s : State) : Outcome State Fault Refusal :=
  .next (s.writeResult dr (s.reg sr1 + s.reg sr2))

/-- ADD, immediate form (R111, R115). -/
def execAddImm (dr sr1 : Reg) (imm5 : BitVec 5) (s : State) : Outcome State Fault Refusal :=
  .next (s.writeResult dr (s.reg sr1 + sext imm5))

/-- AND, register form (R112). -/
def execAndReg (dr sr1 sr2 : Reg) (s : State) : Outcome State Fault Refusal :=
  .next (s.writeResult dr (s.reg sr1 &&& s.reg sr2))

/-- AND, immediate form (R113). -/
def execAndImm (dr sr1 : Reg) (imm5 : BitVec 5) (s : State) : Outcome State Fault Refusal :=
  .next (s.writeResult dr (s.reg sr1 &&& sext imm5))

/-- NOT (R114). -/
def execNot (dr sr : Reg) (s : State) : Outcome State Fault Refusal :=
  .next (s.writeResult dr (~~~ s.reg sr))

end Sys2Proof.Machine
end

