-- ==== Sys2Proof/Machine/Reserved.lean ====
section
/-! DEFINITION. The reserved opcodes RTI and RES (spec/45_reserved.md). -/

namespace Sys2Proof.Machine

/-- A reserved opcode (R172): raise IllegalOpcode, or nothing beyond the pre-increment, by RESERVED_OP_POLICY. -/
def State.reservedOp (s : State) (opcode : BitVec 4) : State :=
  match s.cfg.reservedOp with
  | .fault => s.raise (.illegalOpcode opcode)
  | .noOp => s

/-- RTI (R170): it returns from nothing (R188). -/
def execRti (s : State) : Outcome State Fault Refusal := .next (s.reservedOp 0x8)

/-- RES (R171). -/
def execRes (s : State) : Outcome State Fault Refusal := .next (s.reservedOp 0xD)

end Sys2Proof.Machine
end

