-- ==== Sys2Proof/Machine/Trap.lean ====
section
/-! DEFINITION. TRAP and its six built-in routines (spec/44_trap.md). A routine runs to its end inside the TRAP's cycle
(R159). -/

namespace Sys2Proof.Machine

/-- GETC (R152): one byte into R0, not echoed, COND not written. -/
def trapGetc (s : State) : Outcome State Fault Refusal :=
  (inByte s).andThen fun b s1 => trapReturn (s1.setReg 0 (zext b))

/-- OUT (R153). -/
def trapOut (s : State) : Outcome State Fault Refusal :=
  trapReturn (s.outByte (lowByte (s.reg 0))).flush

/-- The loop of PUTS and PUTSP (R154, R156): read a word, stop at a zero word, else emit it and go on at the next
address, modulo 2^16 (D24). The bound is a count of words; when it is used up the cycle has no next state
(spec/93_implementation_defined.md row 21). -/
def scan (emit : Word → State → State) : Nat → Word → State → Access Unit
  | 0, _, _ => .stuck .scanUnending
  | n + 1, a, s => (memRead a s).bind fun w s1 =>
      if w = 0 then .ok () s1 else scan emit n (a + 1) (emit w s1)

/-- A bound that no scan uses up: each pass over the 65536 addresses reads KBSR_ADDR and so takes a byte of the
finite input. Log entry 9. -/
def scanBound (s : State) : Nat := 65536 * (s.inp.length + 1)

/-- PUTS emits a word's low byte (R154). -/
def emitChar (w : Word) (s : State) : State := s.outByte (lowByte w)

/-- PUTSP emits the low byte always, then the high byte if nonzero (R156). -/
def emitPacked (w : Word) (s : State) : State :=
  if highByte w ≠ 0 then (s.outByte (lowByte w)).outByte (highByte w) else s.outByte (lowByte w)

/-- PUTS (R154): one flush, after the string. -/
def trapPuts (s : State) : Outcome State Fault Refusal :=
  (scan emitChar (scanBound s) (s.reg 0) s).andThen fun _ s1 => trapReturn s1.flush

/-- IN (R155, D12): prompt, flush, byte, echo, flush, R0, setcc. -/
def trapIn (s : State) : Outcome State Fault Refusal :=
  (inByte (s.outBytes s.cfg.inPrompt).flush).andThen fun b s1 =>
    trapReturn ((s1.outByte b).flush.writeResult 0 (zext b))

/-- PUTSP (R156). -/
def trapPutsp (s : State) : Outcome State Fault Refusal :=
  (scan emitPacked (scanBound s) (s.reg 0) s).andThen fun _ s1 => trapReturn s1.flush

/-- HALT (R157, D13): message, flush, Halted. -/
def trapHalt (s : State) : Outcome State Fault Refusal :=
  .next (s.outBytes s.cfg.haltMessage).flush.halt

/-- An unknown vector (R158, D8). -/
def trapUnknown (vector : BitVec 8) (s : State) : Outcome State Fault Refusal :=
  .next (s.raise (.illegalTrap vector))

/-- The dispatch on the vector (R150, R151). -/
def trapRoutine (vector : BitVec 8) (s : State) : Outcome State Fault Refusal :=
  if vector = vectorGetc then trapGetc s
  else if vector = vectorOut then trapOut s
  else if vector = vectorPuts then trapPuts s
  else if vector = vectorIn then trapIn s
  else if vector = vectorPutsp then trapPutsp s
  else if vector = vectorHalt then trapHalt s
  else trapUnknown vector s

/-- TRAP (R150): R7 is written first, even for HALT and an unknown vector. -/
def execTrap (vector : BitVec 8) (s : State) : Outcome State Fault Refusal :=
  trapRoutine vector s.trapEntry

end Sys2Proof.Machine
end

