-- ==== Sys2Proof/Machine/Dispatch.lean ====
section
/-! DEFINITION. The dispatch (R94, R96): one arm per constructor, one meaning per arm. -/

namespace Sys2Proof.Machine

/-- The handler step of a cycle (R94): `s` holds the fetch address plus 1 in its pc. -/
def exec (i : Instr) (s : State) : Host.Outcome State Fault Refusal :=
  match i with
  | .addReg dr sr1 sr2 => Sys2Proof.Machine.execAddReg dr sr1 sr2 s
  | .addImm dr sr1 imm5 => Sys2Proof.Machine.execAddImm dr sr1 imm5 s
  | .andReg dr sr1 sr2 => Sys2Proof.Machine.execAndReg dr sr1 sr2 s
  | .andImm dr sr1 imm5 => Sys2Proof.Machine.execAndImm dr sr1 imm5 s
  | .not dr sr => Sys2Proof.Machine.execNot dr sr s
  | .br mask offset9 => Sys2Proof.Machine.execBr mask offset9 s
  | .jmp baseR => Sys2Proof.Machine.execJmp baseR s
  | .jsr offset11 => Sys2Proof.Machine.execJsr offset11 s
  | .jsrr baseR => Sys2Proof.Machine.execJsrr baseR s
  | .ld dr offset9 => Sys2Proof.Machine.execLd dr offset9 s
  | .ldi dr offset9 => Sys2Proof.Machine.execLdi dr offset9 s
  | .ldr dr baseR offset6 => Sys2Proof.Machine.execLdr dr baseR offset6 s
  | .lea dr offset9 => Sys2Proof.Machine.execLea dr offset9 s
  | .st sr offset9 => Sys2Proof.Machine.execSt sr offset9 s
  | .sti sr offset9 => Sys2Proof.Machine.execSti sr offset9 s
  | .str sr baseR offset6 => Sys2Proof.Machine.execStr sr baseR offset6 s
  | .trap vector => Sys2Proof.Machine.execTrap vector s
  | .rti => Sys2Proof.Machine.execRti s
  | .res => Sys2Proof.Machine.execRes s

end Sys2Proof.Machine
end

