-- ==== Sys2Proof/Machine/Cycle.lean ====
section
/-! DEFINITION. The instruction cycle (spec/40_execution_cycle.md): termination check, fetch, PC pre-increment, decode,
dispatch. -/

namespace Sys2Proof.Machine

/-- `TerminationCheck()` (R91): whether the run ends at the top of this cycle. -/
def terminationDue (s : State) : Bool :=
  match s.cfg.pcBound with
  | .wrap => false
  | .stopAtTop => decide (s.pc = 0xFFFF)
  | .stopAfterTop => s.topCarry

/-- The end of a run at the PC bound (R34, R91, D15). -/
def State.finish (s : State) : State := { s with status := .finished }

/-- The fetch (R92, D10): a `MemRead` of pc, which polls when pc is KBSR_ADDR. -/
def fetch (s : State) : Access Word := memRead s.pc s

/-- The PC pre-increment (R93, R96): modulo 2^16; under StopAfterTop topCarry records a fetch from 0xFFFF. -/
def State.advancePc (s : State) : State :=
  { s with
    pc := s.pc + 1
    topCarry := if s.cfg.pcBound = .stopAfterTop then decide (s.pc = 0xFFFF) else s.topCarry }

/-- `Cycle()` (R96), for a Running state. -/
def cycle (s : State) : Outcome State Fault Refusal :=
  if terminationDue s then .next s.finish
  else (fetch s).andThen fun w s1 => exec (decode w) s1.advancePc

/-- The state with a word placed where the next fetch reads it. -/
def State.placeAtPc (s : State) (w : Word) : State := s.memWrite s.pc w

end Sys2Proof.Machine
end

