-- ==== Sys2Proof/Machine/Step.lean ====
section
/-! DEFINITION. One step of the machine: one cycle (R3, R96). -/

namespace Sys2Proof.Machine

/-- One cycle from a Running state; from a terminal status no cycle runs (R34, R98). -/
def step (s : State) : Host.Outcome State Fault Refusal :=
  match s.status with
  | .running => cycle s
  | .halted | .finished | .errored _ => .fault .runEnded

/-- `s` with the word of the table's bits stored at its pc (log entry 6). The next step runs it when `s` is Running, its
termination check does not fire and its pc is not KBSR_ADDR (whose fetch rewrites the word first); `State.reset` is
such a state. -/
def State.withFetchWord (s : State) (nbits w : Nat) : State := s.placeAtPc (tableWord nbits w)

end Sys2Proof.Machine
end

