-- ==== Sys2Proof/Machine/Launch.lean ====
section
/-! DEFINITION. What stands before and after a run: the image format and the loader (R51 to R53), the reset sequence
and the launches it refuses (R210 to R212), and what the host sees at the end (R195). -/

namespace Sys2Proof.Machine

/-- The error's code number (R180, D16). -/
def Error.code : Error → Nat
  | .outOfBounds _ => 1
  | .keyboardInputError => 2
  | .illegalTrap _ => 3
  | .illegalOpcode _ => 4
  | .notEnoughArguments => 5
  | .incorrectFileName _ _ => 6
  | .badFile => 7

/-- A byte stream as big-endian words (R51); none for an odd number of bytes (R53, D17). -/
def imageWords : List Byte → Option (List Word)
  | [] => some []
  | [_] => none
  | hi :: lo :: rest =>
    match imageWords rest with
    | some ws => some ((hi ++ lo) :: ws)
    | none => none

/-- The loader's stores (R52): plain, from an address upward. -/
def storeWords (m : Memory) (a : Word) : List Word → Memory
  | [] => m
  | w :: ws => storeWords (m.write a w) (a + 1) ws

/-- `Load(bytes)` on the all-zero memory (R52): the origin and the memory, or BadFile for the images refused (R53, D17):
no origin word, an odd byte count, more words than fit between the origin and 0xFFFF. -/
def loadImage (bytes : List Byte) : Except Error (Word × Memory) :=
  match imageWords bytes with
  | some (origin :: ws) =>
    if ws.length ≤ 65536 - origin.toNat then .ok (origin, storeWords [] origin ws) else .error .badFile
  | _ => .error .badFile

/-- What the host hands over for an image path (R199, R211): a path that cannot be opened, or its bytes, with whether
a read failed before the end of the stream. Log entry 13. -/
inductive ImageSource where
  | cannotOpen (path cause : String)
  | stream (bytes : List Byte) (readFails : Bool)
deriving DecidableEq, Repr

/-- The state as created, all zero (R210 step 1). -/
def State.zeroed (cfg : Config) : State where
  regs := Vector.replicate 8 0
  pc := 0
  cond := 0
  count := 0
  mem := []
  status := .running
  inp := []
  out := []
  flushed := 0
  topCarry := false
  cfg := cfg

/-- Steps 2 to 5 of the reset sequence (R210) for a loaded image. START_PC is the origin unless it is given (R212,
D14). -/
def State.start (cfg : Config) (startPc : Option Word) (inp : List Byte) (origin : Word) (mem : Memory) : State :=
  { State.zeroed cfg with
    mem := mem, pc := startPc.getD origin, cond := flagZro, status := .running, inp := inp, out := [] }

/-- A launch (R199, R210, R211): only the first image path is loaded, and a refused launch has no state. -/
def launch (cfg : Config) (startPc : Option Word) (images : List ImageSource) (inp : List Byte) : Except Error State :=
  match images with
  | [] => .error .notEnoughArguments
  | .cannotOpen path cause :: _ => .error (.incorrectFileName path cause)
  | .stream bytes readFails :: _ =>
    if readFails then .error .badFile
    else
      match loadImage bytes with
      | .ok (origin, mem) => .ok (State.start cfg startPc inp origin mem)
      | .error e => .error e

/-- The exit status of an error, raised in a run or refusing a launch (R195, D25): ERROR_EXIT_STATUS for every error
(spec/93_implementation_defined.md row 19). -/
def Error.exitStatus (_ : Error) : Int := Config.errorExitStatus.toInt

/-- The exit status the host sees of a run (R195, D25): none while Running. -/
def exitStatus : Status → Option Int
  | .running => none
  | .halted => some Config.haltExitStatus.toInt
  | .finished => some 0
  | .errored e => some e.exitStatus

/-- The exit status the host sees after a launch (R195): that of the refusal, with the error for its description, or
that of the run so far. -/
def launchExitStatus : Except Error State → Option Int
  | .ok s => exitStatus s.status
  | .error e => some e.exitStatus

end Sys2Proof.Machine
end

