-- ==== Sys2Proof/WellFormed.lean ====
section
/-! DEFINITION. Well-formedness. An instruction's operand fields are typed at their encoded widths, so the one check
left on it is that its register numbers name R0 to R7 (R21, R24), which every term passes; the parameters carry a real
check, that the two keyboard addresses differ (R48). -/

namespace Sys2Proof

/-- Every register number is one of 0 to 7 (R21). -/
def registersOk (numbers : List Nat) : Bool := numbers.all (fun n => decide (n < 8))

/-- The register numbers an instruction names in its fields (R71). -/
def Instr.registers : Instr → List Nat
  | .addReg dr sr1 sr2 | .andReg dr sr1 sr2 => [dr.val, sr1.val, sr2.val]
  | .addImm dr sr1 _ | .andImm dr sr1 _ => [dr.val, sr1.val]
  | .not dr sr => [dr.val, sr.val]
  | .br _ _ | .jsr _ | .trap _ | .rti | .res => []
  | .jmp b | .jsrr b => [b.val]
  | .ld r _ | .ldi r _ | .lea r _ | .st r _ | .sti r _ => [r.val]
  | .ldr r b _ | .str r b _ => [r.val, b.val]

/-- The instruction's register numbers are in range. -/
def Instr.WellFormed (i : Instr) : Bool := registersOk i.registers

/-- "A model takes both as parameters; they must differ" (R48). -/
def Config.WellFormed (c : Config) : Bool := decide (c.kbsrAddr ≠ c.kbdrAddr)

end Sys2Proof
end

