-- ==== Sys2Proof/Safety.lean ====
section
/-! DEFINITION. What counts as a sound state and a safe run, and what each instruction may write, in the terms the
statements use. -/

namespace Sys2Proof

/-- The general registers an instruction may write (R22, R161): its DR, or R7 for JSR, JSRR and TRAP, and R0 for the
routines GETC and IN. -/
def Instr.mayWrite : Instr → List Reg
  | .addReg dr _ _ | .addImm dr _ _ | .andReg dr _ _ | .andImm dr _ _ | .not dr _ => [dr]
  | .ld dr _ | .ldi dr _ | .ldr dr _ _ | .lea dr _ => [dr]
  | .jsr _ | .jsrr _ => [7]
  | .trap v => if v = 0x20 ∨ v = 0x23 then [0, 7] else [7]
  | .br _ _ | .jmp _ | .st _ _ | .sti _ _ | .str _ _ _ | .rti | .res => []

/-- The instructions that write COND (R29): ADD, AND, NOT, LD, LDI, LDR, LEA, and the IN routine. -/
def Instr.writesCond : Instr → Bool
  | .addReg _ _ _ | .addImm _ _ _ | .andReg _ _ _ | .andImm _ _ _ | .not _ _ => true
  | .ld _ _ | .ldi _ _ | .ldr _ _ _ | .lea _ _ => true
  | .trap v => decide (v = 0x23)
  | .br _ _ | .jmp _ | .jsr _ | .jsrr _ | .st _ _ | .sti _ _ | .str _ _ _ | .rti | .res => false

/-- The instructions that read COND (R29): BR. -/
def Instr.readsCond : Instr → Bool
  | .br _ _ => true
  | .addReg _ _ _ | .addImm _ _ _ | .andReg _ _ _ | .andImm _ _ _ | .not _ _ => false
  | .ld _ _ | .ldi _ _ | .ldr _ _ _ | .lea _ _ | .st _ _ | .sti _ _ | .str _ _ _ => false
  | .jmp _ | .jsr _ | .jsrr _ | .trap _ | .rti | .res => false

/-- The instructions whose handler writes PC (R95): BR, JMP, JSR, JSRR. -/
def Instr.writesPc : Instr → Bool
  | .br _ _ | .jmp _ | .jsr _ | .jsrr _ => true
  | .addReg _ _ _ | .addImm _ _ _ | .andReg _ _ _ | .andImm _ _ _ | .not _ _ => false
  | .ld _ _ | .ldi _ _ | .ldr _ _ _ | .lea _ _ | .st _ _ | .sti _ _ | .str _ _ _ => false
  | .trap _ | .rti | .res => false

/-- The instructions that read memory after their fetch (R46): LD, LDI, LDR, STI, and the routines PUTS and PUTSP. -/
def Instr.readsMemory : Instr → Bool
  | .ld _ _ | .ldi _ _ | .ldr _ _ _ | .sti _ _ => true
  | .trap v => decide (v = 0x22 ∨ v = 0x24)
  | .addReg _ _ _ | .addImm _ _ _ | .andReg _ _ _ | .andImm _ _ _ | .not _ _ => false
  | .lea _ _ | .st _ _ | .str _ _ _ | .br _ _ | .jmp _ | .jsr _ | .jsrr _ | .rti | .res => false

/-- The instructions that store a register to memory: ST, STI, STR (R134 to R136). -/
def Instr.stores : Instr → Bool
  | .st _ _ | .sti _ _ | .str _ _ _ => true
  | .addReg _ _ _ | .addImm _ _ _ | .andReg _ _ _ | .andImm _ _ _ | .not _ _ => false
  | .ld _ _ | .ldi _ _ | .ldr _ _ _ | .lea _ _ | .br _ _ | .jmp _ | .jsr _ | .jsrr _ => false
  | .trap _ | .rti | .res => false

namespace Machine

/-- One of the six trap vectors (R151). -/
def knownVector (v : BitVec 8) : Bool :=
  decide (v = vectorGetc ∨ v = vectorOut ∨ v = vectorPuts ∨ v = vectorIn ∨ v = vectorPutsp ∨ v = vectorHalt)

/-- The errors a run can raise (R180): codes 2 to 4, each with an argument that raises it. -/
def RunError : Error → Prop
  | .keyboardInputError => True
  | .illegalTrap v => knownVector v = false
  | .illegalOpcode op => op = 0x8#4 ∨ op = 0xD#4
  | .outOfBounds _ | .notEnoughArguments | .incorrectFileName _ _ | .badFile => False

/-- What holds in every state of a run: memory in canonical form, COND one flag (R30), COUNT zero (R31), no more bytes
flushed than emitted (R194), topCarry set only under StopAfterTop with PC wrapped to 0 (R35), errors of a run only
(R180), and the parameters well formed (R48). -/
structure State.Inv (s : State) : Prop where
  mem : s.mem.wf
  cond : s.cond = flagPos ∨ s.cond = flagZro ∨ s.cond = flagNeg
  count : s.count = 0
  flushed : s.flushed ≤ s.out.length
  topCarry : s.topCarry = true → s.cfg.pcBound = .stopAfterTop ∧ s.pc = 0
  status : ∀ e, s.status = .errored e → RunError e
  cfg : s.cfg.WellFormed = true

/-- The state under another reading of the memory bound (R91). -/
def State.withPcBound (s : State) (m : PcBoundMode) : State := { s with cfg := { s.cfg with pcBound := m } }

/-- The image bytes of a list of words, big-endian (R51). -/
def imageBytes (ws : List Word) : List Byte := ws.flatMap fun w => [w.extractLsb' 8 8, w.extractLsb' 0 8]

end Machine

end Sys2Proof
end

