-- ==== Sys2Proof/Certificates/Slice0/Obligations.lean ====
section
/-! DEFINITION. The statements for the provers. Each docstring names the rule of spec/ it formalises. Statements about an
instruction give the words that decode to it and the whole next state of its handler step; every field not named in a
record update is unchanged, so a statement of this form is the instruction's result, completion and frame at once. -/

open Sys2Proof Sys2Proof.Machine

/-! ### Encoding -/

/-- R70, R71, R75 (numbers: D1, log entry 8; filler bits: log entry 10): decoding an encoded instruction gives it back,
for every instruction and every operand value its fields hold. -/
def Obligations.DecodeOfEncodeIsTheInstruction : Prop :=
  ∀ i : Instr, decode (encode i) = i

/-- R76: encoding a decoded word gives the word back on every bit its handler examines. -/
def Obligations.EncodeOfDecodeKeepsExaminedBits : Prop :=
  ∀ w : Word, encode (decode w) &&& (decode w).examined = w &&& (decode w).examined

/-- R77: every 16-bit word belongs to exactly one row of spec/opcode_table.json, the row of the instruction it decodes
to. -/
def Obligations.EveryWordHasExactlyItsOneTableRow : Prop :=
  ∀ w : Word, opcodeTable.filter (fun r => r.admits w) = [(decode w).tableRow]

/-- R76: bits the handler does not examine do not change the instruction. -/
def Obligations.UnexaminedBitsChangeNothing : Prop :=
  ∀ w x : Word, w &&& (decode w).examined = x &&& (decode w).examined → decode x = decode w

/-- R75, R79: words of spec/95_test_vectors.md decode to the instructions their rows name. -/
def Obligations.VectorWordsDecode : Prop :=
  decode 0x1642 = .addReg 3 1 2 ∧ decode 0x127F = .addImm 1 1 0x1F#5 ∧ decode 0x5042 = .andReg 0 1 2 ∧
  decode 0x923F = .not 1 0 ∧ decode 0x0402 = .br 0b010#3 2#9 ∧ decode 0xC1FF = .jmp 7 ∧ decode 0x4802 = .jsr 2#11 ∧
  decode 0x40C0 = .jsrr 3 ∧ decode 0xA605 = .ldi 3 5#9 ∧ decode 0x7281 = .str 1 2 1#6 ∧ decode 0xFF25 = .trap 0x25#8 ∧
  decode 0xD123 = .res ∧ decode 0x0000 = .br 0#3 0#9

/-- R73 (its formula), R12: for a field of every width from 1 to 16, the sign extension is x when x < 2^(k-1), else
x + 0x10000 - 2^k; its bits below k are the field's and its other bits the field's top bit; the zero extension's other
bits are 0. -/
def Obligations.SignExtensionOfEveryWidth : Prop :=
  ∀ (k : Nat) (f : BitVec k), 1 ≤ k → k ≤ 16 →
    (sext f).toNat = (if f.toNat < 2 ^ (k - 1) then f.toNat else f.toNat + 65536 - 2 ^ k) ∧
    (∀ j < 16, (sext f).getLsbD j = if j < k then f.getLsbD j else f.getLsbD (k - 1)) ∧
    (∀ j < 16, (zext f).getLsbD j = if j < k then f.getLsbD j else false)

/-! ### Registers, flags, memory -/

/-- R28: `setcc` writes ZRO for 0, NEG when bit 15 is set, POS otherwise, and nothing else; `update_flags` does so from a
slot's value and fails with OutOfBounds from index 11 on. -/
def Obligations.FlagUpdateRule : Prop :=
  (∀ (s : State) (v : Word),
    (v = 0 → s.setcc v = { s with cond := flagZro }) ∧
    (32768 ≤ v.toNat → s.setcc v = { s with cond := flagNeg }) ∧
    (v.toNat ≠ 0 → v.toNat < 32768 → s.setcc v = { s with cond := flagPos })) ∧
  (∀ (s : State) (idx : Nat) (v : Word), s.getSlot idx = .ok v → s.updateFlags idx = .ok (s.setcc v)) ∧
  (∀ (s : State) (idx : Nat), 11 ≤ idx → s.updateFlags idx = .error (.outOfBounds idx))

/-- R23: the accessors fail with OutOfBounds from index 11 on, an answer that holds no changed state; below, a stored value
is returned by the slot it was stored to and by no other. -/
def Obligations.RegisterAccessors : Prop :=
  (∀ (s : State) (idx : Nat) (v : Word), 11 ≤ idx →
    s.getSlot idx = .error (.outOfBounds idx) ∧ s.setSlot idx v = .error (.outOfBounds idx)) ∧
  (∀ (s : State) (idx : Nat) (v : Word), idx < 11 → ∃ t, s.setSlot idx v = .ok t ∧ t.getSlot idx = .ok v ∧
    ∀ j, j ≠ idx → t.getSlot j = s.getSlot j)

/-- R21 (numbers 8 to 10: the spec's decision D5), R27 and R151 (the spec's decisions D3 and D2, log entry 8), log
entry 12: the slots by number, the flags' values and the vectors; storing to a slot changes the register of that slot and
nothing else. -/
def Obligations.SlotFlagAndVectorNumbers : Prop :=
  (∀ (s : State) (r : Reg) (v : Word), s.getSlot r.val = .ok (s.reg r) ∧
    s.setSlot r.val v = .ok { s with regs := s.regs.set r.val v }) ∧
  (∀ (s : State) (v : Word), s.getSlot 8 = .ok s.pc ∧ s.getSlot 9 = .ok s.cond ∧ s.getSlot 10 = .ok s.count ∧
    s.setSlot 8 v = .ok { s with pc := v } ∧ s.setSlot 9 v = .ok { s with cond := v } ∧
    s.setSlot 10 v = .ok { s with count := v }) ∧
  flagPos = 0x0001 ∧ flagZro = 0x0002 ∧ flagNeg = 0x0004 ∧
  vectorGetc = 0x20 ∧ vectorOut = 0x21 ∧ vectorPuts = 0x22 ∧ vectorIn = 0x23 ∧ vectorPutsp = 0x24 ∧ vectorHalt = 0x25 ∧
  ∀ v : BitVec 8, knownVector v = true ↔ 0x20 ≤ v.toNat ∧ v.toNat ≤ 0x25

/-- R43: a store always succeeds, at every address, device words included; the word reads back and every other word is
as before, and the next read of it returns it, but for a read of KBSR_ADDR, which polls first. -/
def Obligations.StoreWritesOneWord : Prop :=
  ∀ (s : State) (a b v : Word),
    (s.memWrite a v).mem.read b = (if b = a then v else s.mem.read b) ∧
    s.memWrite a v = { s with mem := (s.memWrite a v).mem } ∧
    (a ≠ s.cfg.kbsrAddr → memRead a (s.memWrite a v) = .ok v (s.memWrite a v)) ∧
    (a = s.cfg.kbsrAddr → memRead a (s.memWrite a v) =
      (keyboardPoll (s.memWrite a v)).bind fun _ t => .ok (t.mem.read a) t)

/-- R44: a read of KBSR_ADDR polls and then returns the stored word; a read of any other address has no side effect. -/
def Obligations.ReadPollsOnlyAtKbsr : Prop :=
  ∀ (s : State) (a : Word),
    (a ≠ s.cfg.kbsrAddr → memRead a s = .ok (s.mem.read a) s) ∧
    (a = s.cfg.kbsrAddr →
      (∀ t, keyboardPoll s = .ok () t → memRead a s = .ok (t.mem.read a) t) ∧
      (∀ t, keyboardPoll s = .ended t → memRead a s = .ended t) ∧
      (∀ r, keyboardPoll s = .stuck r → memRead a s = .stuck r))

/-- R45: the poll takes one input byte; nonzero sets KBSR by KBSR_SET_MODE and KBDR to the byte, zero clears KBSR and leaves
KBDR. At the end of the input (R193, R99; the spec's decisions D11, D26; log entry 4: the stall is the fault inputStall) it
raises KeyboardInputError under Fail with nothing else changed, and has no transition under Stall. -/
def Obligations.KeyboardPollEffect : Prop :=
  ∀ s : State, s.cfg.WellFormed = true →
    (∀ b rest, s.inp = b :: rest → ∃ t, keyboardPoll s = .ok () t ∧ t = { s with inp := rest, mem := t.mem } ∧
      (b ≠ 0 → s.cfg.kbsrSet = .assign → t.mem.read s.cfg.kbsrAddr = 0x8000) ∧
      (b ≠ 0 → s.cfg.kbsrSet = .orHigh → t.mem.read s.cfg.kbsrAddr = s.mem.read s.cfg.kbsrAddr ||| 0x8000) ∧
      (b ≠ 0 → t.mem.read s.cfg.kbdrAddr = b.setWidth 16) ∧
      (b = 0 → t.mem.read s.cfg.kbsrAddr = 0 ∧ t.mem.read s.cfg.kbdrAddr = s.mem.read s.cfg.kbdrAddr) ∧
      (∀ a, a ≠ s.cfg.kbsrAddr → a ≠ s.cfg.kbdrAddr → t.mem.read a = s.mem.read a)) ∧
    (s.inp = [] → s.cfg.inputEnd = .fail → keyboardPoll s = .ended { s with status := .errored .keyboardInputError }) ∧
    (s.inp = [] → s.cfg.inputEnd = .stall → keyboardPoll s = .stuck .inputStall)

/-! ### Operate instructions -/

/-- R110 (opcode number: the spec's decision D1, log entry 8): ADD, register form. -/
def Obligations.AddRegisterForm : Prop :=
  (∀ w : Word, w.extractLsb' 12 4 = 0b0001#4 → w.extractLsb' 5 1 = 0#1 →
    decode w = .addReg (w.extractLsb' 9 3).toFin (w.extractLsb' 6 3).toFin (w.extractLsb' 0 3).toFin) ∧
  ∀ (dr sr1 sr2 : Reg) (s : State), exec (.addReg dr sr1 sr2) s =
    .next { s with regs := s.regs.set dr.val (s.reg sr1 + s.reg sr2), cond := flagOf (s.reg sr1 + s.reg sr2) }

/-- R111 (opcode number: the spec's decision D1, log entry 8): ADD, immediate form. -/
def Obligations.AddImmediateForm : Prop :=
  (∀ w : Word, w.extractLsb' 12 4 = 0b0001#4 → w.extractLsb' 5 1 = 1#1 →
    decode w = .addImm (w.extractLsb' 9 3).toFin (w.extractLsb' 6 3).toFin (w.extractLsb' 0 5)) ∧
  ∀ (dr sr1 : Reg) (imm5 : BitVec 5) (s : State), exec (.addImm dr sr1 imm5) s =
    .next { s with regs := s.regs.set dr.val (s.reg sr1 + sext imm5), cond := flagOf (s.reg sr1 + sext imm5) }

/-- R112 (opcode number: the spec's decision D1, log entry 8): AND, register form. -/
def Obligations.AndRegisterForm : Prop :=
  (∀ w : Word, w.extractLsb' 12 4 = 0b0101#4 → w.extractLsb' 5 1 = 0#1 →
    decode w = .andReg (w.extractLsb' 9 3).toFin (w.extractLsb' 6 3).toFin (w.extractLsb' 0 3).toFin) ∧
  ∀ (dr sr1 sr2 : Reg) (s : State), exec (.andReg dr sr1 sr2) s =
    .next { s with regs := s.regs.set dr.val (s.reg sr1 &&& s.reg sr2), cond := flagOf (s.reg sr1 &&& s.reg sr2) }

/-- R113 (opcode number: the spec's decision D1, log entry 8): AND, immediate form. -/
def Obligations.AndImmediateForm : Prop :=
  (∀ w : Word, w.extractLsb' 12 4 = 0b0101#4 → w.extractLsb' 5 1 = 1#1 →
    decode w = .andImm (w.extractLsb' 9 3).toFin (w.extractLsb' 6 3).toFin (w.extractLsb' 0 5)) ∧
  ∀ (dr sr1 : Reg) (imm5 : BitVec 5) (s : State), exec (.andImm dr sr1 imm5) s =
    .next { s with regs := s.regs.set dr.val (s.reg sr1 &&& sext imm5), cond := flagOf (s.reg sr1 &&& sext imm5) }

/-- R114 (opcode number: the spec's decision D1, log entry 8): NOT. -/
def Obligations.NotComplements : Prop :=
  (∀ w : Word, w.extractLsb' 12 4 = 0b1001#4 →
    decode w = .not (w.extractLsb' 9 3).toFin (w.extractLsb' 6 3).toFin) ∧
  ∀ (dr sr : Reg) (s : State), exec (.not dr sr) s =
    .next { s with regs := s.regs.set dr.val (~~~ s.reg sr), cond := flagOf (~~~ s.reg sr) }

/-! ### Control transfer -/

/-- R120 (opcode number: D1, log entry 8; topCarry: ControlTransfersClearTopCarry): BR. With COND one of NEG, ZRO, POS, bit n, z or p of the mask decides. -/
def Obligations.BranchRule : Prop :=
  (∀ w : Word, w.extractLsb' 12 4 = 0b0000#4 → decode w = .br (w.extractLsb' 9 3) (w.extractLsb' 0 9)) ∧
  (∀ (mask : BitVec 3) (offset9 : BitVec 9) (s : State),
    (mask.setWidth 16 &&& s.cond ≠ 0 → ∃ carry, exec (.br mask offset9) s =
      .next { s with pc := s.pc + sext offset9, topCarry := carry }) ∧
    (mask.setWidth 16 &&& s.cond = 0 → exec (.br mask offset9) s = .next s)) ∧
  (∀ mask : BitVec 3,
    (mask.setWidth 16 &&& flagNeg ≠ 0 ↔ mask.getLsbD 2 = true) ∧
    (mask.setWidth 16 &&& flagZro ≠ 0 ↔ mask.getLsbD 1 = true) ∧
    (mask.setWidth 16 &&& flagPos ≠ 0 ↔ mask.getLsbD 0 = true))

/-- R121 (opcode number: D1, log entry 8; topCarry: ControlTransfersClearTopCarry): JMP, and RET. -/
def Obligations.JumpRule : Prop :=
  (∀ w : Word, w.extractLsb' 12 4 = 0b1100#4 → decode w = .jmp (w.extractLsb' 6 3).toFin) ∧
  ∀ (baseR : Reg) (s : State), ∃ carry, exec (.jmp baseR) s = .next { s with pc := s.reg baseR, topCarry := carry }

/-- R122 (opcode number: D1, log entry 8; topCarry: ControlTransfersClearTopCarry): JSR. -/
def Obligations.JsrRule : Prop :=
  (∀ w : Word, w.extractLsb' 12 4 = 0b0100#4 → w.extractLsb' 11 1 = 1#1 → decode w = .jsr (w.extractLsb' 0 11)) ∧
  ∀ (offset11 : BitVec 11) (s : State), ∃ carry, exec (.jsr offset11) s =
    .next { s with regs := s.regs.set 7 s.pc, pc := s.pc + sext offset11, topCarry := carry }

/-- R123 (opcode number: D1, log entry 8; topCarry: ControlTransfersClearTopCarry): JSRR writes R7 before it reads BaseR, so JSRR R7 goes on at the next word. -/
def Obligations.JsrrRule : Prop :=
  (∀ w : Word, w.extractLsb' 12 4 = 0b0100#4 → w.extractLsb' 11 1 = 0#1 → decode w = .jsrr (w.extractLsb' 6 3).toFin) ∧
  ∀ (baseR : Reg) (s : State), ∃ carry, exec (.jsrr baseR) s =
    .next { s with
      regs := s.regs.set 7 s.pc
      pc := if baseR = 7 then s.pc else s.reg baseR
      topCarry := carry }

/-- R95 (the spec's decision D6): a taken BR, JMP, JSR and JSRR clear topCarry under StopAfterTop and keep it otherwise;
a BR not taken keeps it. -/
def Obligations.ControlTransfersClearTopCarry : Prop :=
  ∀ (i : Instr) (s t : State), i.writesPc = true → exec i s = .next t →
    (s.cfg.pcBound ≠ .stopAfterTop → t.topCarry = s.topCarry) ∧
    (s.cfg.pcBound = .stopAfterTop →
      (∀ mask offset9, i = .br mask offset9 → mask.setWidth 16 &&& s.cond = 0 → t.topCarry = s.topCarry) ∧
      (∀ mask offset9, i = .br mask offset9 → mask.setWidth 16 &&& s.cond ≠ 0 → t.topCarry = false) ∧
      ((∀ mask offset9, i ≠ .br mask offset9) → t.topCarry = false))

/-! ### Loads and stores -/

/-- R130 (opcode number: the spec's decision D1, log entry 8): LD. At an address other than KBSR_ADDR it always completes with the stored word; at KBSR_ADDR it ends as its
read does (ReadPollsOnlyAtKbsr), DR and COND unchanged when the read fails. -/
def Obligations.LoadRule : Prop :=
  (∀ w : Word, w.extractLsb' 12 4 = 0b0010#4 → decode w = .ld (w.extractLsb' 9 3).toFin (w.extractLsb' 0 9)) ∧
  ∀ (dr : Reg) (offset9 : BitVec 9) (s : State),
    (s.pc + sext offset9 ≠ s.cfg.kbsrAddr → exec (.ld dr offset9) s =
      .next { s with
        regs := s.regs.set dr.val (s.mem.read (s.pc + sext offset9))
        cond := flagOf (s.mem.read (s.pc + sext offset9)) }) ∧
    (∀ v t, memRead (s.pc + sext offset9) s = .ok v t →
      exec (.ld dr offset9) s = .next { t with regs := t.regs.set dr.val v, cond := flagOf v }) ∧
    (∀ t, memRead (s.pc + sext offset9) s = .ended t → exec (.ld dr offset9) s = .next t) ∧
    (∀ r, memRead (s.pc + sext offset9) s = .stuck r → exec (.ld dr offset9) s = .fault r)

/-- R131 (opcode number: the spec's decision D1, log entry 8): LDI, the pointer read before the data read; each read may poll, and either may fail, DR and COND then
unchanged. -/
def Obligations.LoadIndirectRule : Prop :=
  (∀ w : Word, w.extractLsb' 12 4 = 0b1010#4 → decode w = .ldi (w.extractLsb' 9 3).toFin (w.extractLsb' 0 9)) ∧
  ∀ (dr : Reg) (offset9 : BitVec 9) (s : State),
    (s.pc + sext offset9 ≠ s.cfg.kbsrAddr → s.mem.read (s.pc + sext offset9) ≠ s.cfg.kbsrAddr →
      exec (.ldi dr offset9) s =
        .next { s with
          regs := s.regs.set dr.val (s.mem.read (s.mem.read (s.pc + sext offset9)))
          cond := flagOf (s.mem.read (s.mem.read (s.pc + sext offset9))) }) ∧
    (∀ p t v u, memRead (s.pc + sext offset9) s = .ok p t → memRead p t = .ok v u →
      exec (.ldi dr offset9) s = .next { u with regs := u.regs.set dr.val v, cond := flagOf v }) ∧
    (∀ t, memRead (s.pc + sext offset9) s = .ended t → exec (.ldi dr offset9) s = .next t) ∧
    (∀ p t u, memRead (s.pc + sext offset9) s = .ok p t → memRead p t = .ended u →
      exec (.ldi dr offset9) s = .next u) ∧
    (∀ r, memRead (s.pc + sext offset9) s = .stuck r → exec (.ldi dr offset9) s = .fault r) ∧
    (∀ p t r, memRead (s.pc + sext offset9) s = .ok p t → memRead p t = .stuck r →
      exec (.ldi dr offset9) s = .fault r)

/-- R132 (opcode number: the spec's decision D1, log entry 8): LDR; the base register is read before DR is written and is not modified unless it is DR. -/
def Obligations.LoadBaseRule : Prop :=
  (∀ w : Word, w.extractLsb' 12 4 = 0b0110#4 →
    decode w = .ldr (w.extractLsb' 9 3).toFin (w.extractLsb' 6 3).toFin (w.extractLsb' 0 6)) ∧
  ∀ (dr baseR : Reg) (offset6 : BitVec 6) (s : State),
    (s.reg baseR + sext offset6 ≠ s.cfg.kbsrAddr → exec (.ldr dr baseR offset6) s =
      .next { s with
        regs := s.regs.set dr.val (s.mem.read (s.reg baseR + sext offset6))
        cond := flagOf (s.mem.read (s.reg baseR + sext offset6)) }) ∧
    (∀ v t, memRead (s.reg baseR + sext offset6) s = .ok v t →
      exec (.ldr dr baseR offset6) s = .next { t with regs := t.regs.set dr.val v, cond := flagOf v }) ∧
    (∀ t, memRead (s.reg baseR + sext offset6) s = .ended t → exec (.ldr dr baseR offset6) s = .next t) ∧
    (∀ r, memRead (s.reg baseR + sext offset6) s = .stuck r → exec (.ldr dr baseR offset6) s = .fault r)

/-- R133 (opcode number: the spec's decision D1, log entry 8): LEA sets DR and COND from the address and reads no memory, so it takes no input even at KBSR_ADDR. -/
def Obligations.LoadAddressRule : Prop :=
  (∀ w : Word, w.extractLsb' 12 4 = 0b1110#4 → decode w = .lea (w.extractLsb' 9 3).toFin (w.extractLsb' 0 9)) ∧
  ∀ (dr : Reg) (offset9 : BitVec 9) (s : State), exec (.lea dr offset9) s =
    .next { s with regs := s.regs.set dr.val (s.pc + sext offset9), cond := flagOf (s.pc + sext offset9) }

/-- R134 (opcode number: the spec's decision D1, log entry 8): ST. -/
def Obligations.StoreRule : Prop :=
  (∀ w : Word, w.extractLsb' 12 4 = 0b0011#4 → decode w = .st (w.extractLsb' 9 3).toFin (w.extractLsb' 0 9)) ∧
  ∀ (sr : Reg) (offset9 : BitVec 9) (s : State), exec (.st sr offset9) s =
    .next { s with mem := s.mem.write (s.pc + sext offset9) (s.reg sr) }

/-- R135 (opcode number: the spec's decision D1, log entry 8): STI; the pointer read may poll or fail, nothing stored then; the store itself never polls. -/
def Obligations.StoreIndirectRule : Prop :=
  (∀ w : Word, w.extractLsb' 12 4 = 0b1011#4 → decode w = .sti (w.extractLsb' 9 3).toFin (w.extractLsb' 0 9)) ∧
  ∀ (sr : Reg) (offset9 : BitVec 9) (s : State),
    (s.pc + sext offset9 ≠ s.cfg.kbsrAddr → exec (.sti sr offset9) s =
      .next { s with mem := s.mem.write (s.mem.read (s.pc + sext offset9)) (s.reg sr) }) ∧
    (∀ p t, memRead (s.pc + sext offset9) s = .ok p t →
      exec (.sti sr offset9) s = .next { t with mem := t.mem.write p (s.reg sr) }) ∧
    (∀ t, memRead (s.pc + sext offset9) s = .ended t → exec (.sti sr offset9) s = .next t) ∧
    (∀ r, memRead (s.pc + sext offset9) s = .stuck r → exec (.sti sr offset9) s = .fault r)

/-- R136 (opcode number: the spec's decision D1, log entry 8): STR. -/
def Obligations.StoreBaseRule : Prop :=
  (∀ w : Word, w.extractLsb' 12 4 = 0b0111#4 →
    decode w = .str (w.extractLsb' 9 3).toFin (w.extractLsb' 6 3).toFin (w.extractLsb' 0 6)) ∧
  ∀ (sr baseR : Reg) (offset6 : BitVec 6) (s : State), exec (.str sr baseR offset6) s =
    .next { s with mem := s.mem.write (s.reg baseR + sext offset6) (s.reg sr) }

/-- R138, C5: a word stored by ST is what an LD of the next cycle loads from the same effective address, and a word
stored by STI is what an LDI loads through a pointer word to the same address, at every effective address but
KBSR_ADDR. -/
def Obligations.StoreThenLoadReturnsValue : Prop :=
  (∀ (sr dr : Reg) (o1 o2 : BitVec 9) (s t : State),
    exec (.st sr o1) s = .next t → s.pc + 1 + sext o2 = s.pc + sext o1 → s.pc + sext o1 ≠ s.cfg.kbsrAddr →
    ∃ u, exec (.ld dr o2) t.advancePc = .next u ∧ u.reg dr = s.reg sr ∧ u.cond = flagOf (s.reg sr)) ∧
  (∀ (sr dr : Reg) (o1 o2 : BitVec 9) (s t : State),
    exec (.sti sr o1) s = .next t → s.pc + sext o1 ≠ s.cfg.kbsrAddr → s.pc + 1 + sext o2 ≠ s.cfg.kbsrAddr →
    t.mem.read (s.pc + 1 + sext o2) = s.mem.read (s.pc + sext o1) → s.mem.read (s.pc + sext o1) ≠ s.cfg.kbsrAddr →
    ∃ u, exec (.ldi dr o2) t.advancePc = .next u ∧ u.reg dr = s.reg sr ∧ u.cond = flagOf (s.reg sr))

/-! ### TRAP -/

/-- R150, R158 (D8, vector numbers D2: log entry 8): a word with opcode 1111 is a TRAP of its low byte; an unknown
vector ends the run Errored(IllegalTrap(v)) after R7 <- PC and nothing else. -/
def Obligations.UnknownTrapVector : Prop :=
  (∀ w : Word, w.extractLsb' 12 4 = 0b1111#4 → decode w = .trap (w.extractLsb' 0 8)) ∧
  ∀ (v : BitVec 8) (s : State), knownVector v = false → exec (.trap v) s =
    .next { s with regs := s.regs.set 7 s.pc, status := .errored (.illegalTrap v) }

/-- R152: GETC. At the end of the input R193, R99 (the spec's decisions D11, D26; log entry 4: the stall is the fault
inputStall). -/
def Obligations.TrapGetcReadsOneByte : Prop :=
  ∀ s : State,
    (∀ b rest, s.inp = b :: rest → exec (.trap vectorGetc) s =
      .next { s with regs := (s.regs.set 7 s.pc).set 0 (b.setWidth 16), inp := rest }) ∧
    (s.inp = [] → s.cfg.inputEnd = .fail → exec (.trap vectorGetc) s =
      .next { s with regs := s.regs.set 7 s.pc, status := .errored .keyboardInputError }) ∧
    (s.inp = [] → s.cfg.inputEnd = .stall → exec (.trap vectorGetc) s = .fault .inputStall)

/-- R153: OUT. -/
def Obligations.TrapOutWritesLowByte : Prop :=
  ∀ s : State, exec (.trap vectorOut) s =
    .next { s with
      regs := s.regs.set 7 s.pc
      out := s.out ++ [(s.reg 0).extractLsb' 0 8]
      flushed := s.out.length + 1 }

/-- R154: PUTS prints a string that does not reach KBSR_ADDR, one low byte a word, to its first zero WORD, and flushes. -/
def Obligations.TrapPutsPrintsString : Prop :=
  ∀ (s : State) (ws : List Word),
    (∀ (k : Nat) (h : k < ws.length), s.mem.read (s.reg 0 + BitVec.ofNat 16 k) = ws[k] ∧ ws[k] ≠ 0) →
    s.mem.read (s.reg 0 + BitVec.ofNat 16 ws.length) = 0 →
    (∀ k ≤ ws.length, s.reg 0 + BitVec.ofNat 16 k ≠ s.cfg.kbsrAddr) →
    exec (.trap vectorPuts) s =
      .next { s with
        regs := s.regs.set 7 s.pc
        out := s.out ++ ws.map (fun w => w.extractLsb' 0 8)
        flushed := s.out.length + ws.length }

/-- R155 (the spec's decision D12, for every IN_PROMPT): IN. At the end of the input R193, R99 (the spec's decisions D11,
D26; log entry 4: the stall is the fault inputStall). -/
def Obligations.TrapInPromptsReadsEchoes : Prop :=
  ∀ s : State,
    (∀ b rest, s.inp = b :: rest → exec (.trap vectorIn) s =
      .next { s with
        regs := (s.regs.set 7 s.pc).set 0 (b.setWidth 16)
        cond := flagOf (b.setWidth 16)
        inp := rest
        out := s.out ++ s.cfg.inPrompt ++ [b]
        flushed := s.out.length + s.cfg.inPrompt.length + 1 }) ∧
    (s.inp = [] → s.cfg.inputEnd = .fail → exec (.trap vectorIn) s =
      .next { s with
        regs := s.regs.set 7 s.pc
        out := s.out ++ s.cfg.inPrompt
        flushed := s.out.length + s.cfg.inPrompt.length
        status := .errored .keyboardInputError }) ∧
    (s.inp = [] → s.cfg.inputEnd = .stall → exec (.trap vectorIn) s = .fault .inputStall)

/-- R156: PUTSP prints a string that does not reach KBSR_ADDR, each word's low byte always and then its high byte if
nonzero, to its first zero word, and flushes. -/
def Obligations.TrapPutspPrintsPackedString : Prop :=
  ∀ (s : State) (ws : List Word) (bytes : List Byte),
    (∀ (k : Nat) (h : k < ws.length), s.mem.read (s.reg 0 + BitVec.ofNat 16 k) = ws[k] ∧ ws[k] ≠ 0) →
    s.mem.read (s.reg 0 + BitVec.ofNat 16 ws.length) = 0 →
    (∀ k ≤ ws.length, s.reg 0 + BitVec.ofNat 16 k ≠ s.cfg.kbsrAddr) →
    bytes = ws.flatMap (fun w => w.extractLsb' 0 8 :: if w.extractLsb' 8 8 ≠ 0 then [w.extractLsb' 8 8] else []) →
    exec (.trap vectorPutsp) s =
      .next { s with
        regs := s.regs.set 7 s.pc
        out := s.out ++ bytes
        flushed := s.out.length + bytes.length }

/-- R154 and R156 (the spec's decision D24), R46 (D10): PUTS and PUTSP run the spec's loop on every memory, polls included:
a loop that reads a word, stops at a zero word, else emits and goes on at the next address, with no bound of its own, and
then one flush. The model's own bound is never used up (log entry 9). -/
def Obligations.PutsAndPutspRunTheLoop : Prop :=
  (∃ loop : Word → State → Access Unit,
    (∀ a s, loop a s = (memRead a s).bind fun w t =>
      if w = 0 then .ok () t else loop (a + 1) { t with out := t.out ++ [w.extractLsb' 0 8] }) ∧
    ∀ s : State, exec (.trap vectorPuts) s =
      (loop (s.reg 0) { s with regs := s.regs.set 7 s.pc }).andThen fun _ t => .next { t with flushed := t.out.length }) ∧
  (∃ loop : Word → State → Access Unit,
    (∀ a s, loop a s = (memRead a s).bind fun w t =>
      if w = 0 then .ok () t
      else loop (a + 1) { t with
        out := t.out ++ w.extractLsb' 0 8 :: if w.extractLsb' 8 8 ≠ 0 then [w.extractLsb' 8 8] else [] }) ∧
    ∀ s : State, exec (.trap vectorPutsp) s =
      (loop (s.reg 0) { s with regs := s.regs.set 7 s.pc }).andThen fun _ t => .next { t with flushed := t.out.length })

/-- R157 (D13, for every HALT_MESSAGE): HALT. -/
def Obligations.TrapHaltEndsTheRun : Prop :=
  ∀ s : State, exec (.trap vectorHalt) s =
    .next { s with
      regs := s.regs.set 7 s.pc
      out := s.out ++ s.cfg.haltMessage
      flushed := s.out.length + s.cfg.haltMessage.length
      status := .halted }

/-! ### Reserved opcodes -/

/-- R170, R171, R172 (D7): RTI and RES raise IllegalOpcode under Fault and do nothing under NoOp. -/
def Obligations.ReservedOpcodes : Prop :=
  (∀ w : Word, w.extractLsb' 12 4 = 0b1000#4 → decode w = .rti) ∧
  (∀ w : Word, w.extractLsb' 12 4 = 0b1101#4 → decode w = .res) ∧
  ∀ s : State,
    (s.cfg.reservedOp = .fault →
      exec .rti s = .next { s with status := .errored (.illegalOpcode 0x8#4) } ∧
      exec .res s = .next { s with status := .errored (.illegalOpcode 0xD#4) }) ∧
    (s.cfg.reservedOp = .noOp → exec .rti s = .next s ∧ exec .res s = .next s)

/-! ### The cycle -/

/-- R92 (the spec's decision D10), R93 (D6), R94, R96, R99: when the run does not end at this cycle's check, a Running step
reads the word at pc (polling when pc is KBSR_ADDR), moves pc on by one and runs the instruction the word decodes to; a
fetch that fails ends the run with pc still the fetch address; a fetch that stalls leaves no next state (log entry 4). -/
def Obligations.StepRunsTheDecodedInstruction : Prop :=
  ∀ s : State, s.status = .running → terminationDue s = false →
    (∀ i, s.pc ≠ s.cfg.kbsrAddr → decode (s.mem.read s.pc) = i →
      step s = exec i { s with
        pc := s.pc + 1
        topCarry := if s.cfg.pcBound = .stopAfterTop then decide (s.pc = 0xFFFF) else s.topCarry }) ∧
    (∀ w t i, memRead s.pc s = .ok w t → decode w = i →
      step s = exec i { t with
        pc := s.pc + 1
        topCarry := if s.cfg.pcBound = .stopAfterTop then decide (s.pc = 0xFFFF) else s.topCarry }) ∧
    (∀ t, memRead s.pc s = .ended t → step s = .next t ∧ t.pc = s.pc) ∧
    (∀ r, memRead s.pc s = .stuck r → step s = .fault r)

/-- R91 (D6): the termination check of each PC_BOUND_MODE. -/
def Obligations.TerminationCheckOfEachMode : Prop :=
  ∀ s : State, s.status = .running →
    (s.cfg.pcBound = .wrap → terminationDue s = false) ∧
    (s.cfg.pcBound = .stopAtTop →
      (s.pc = 0xFFFF → step s = .next { s with status := .finished }) ∧ (s.pc ≠ 0xFFFF → terminationDue s = false)) ∧
    (s.cfg.pcBound = .stopAfterTop →
      (s.topCarry = true → step s = .next { s with status := .finished }) ∧
      (s.topCarry = false → terminationDue s = false))

/-- R91 (the spec's decision D6; "the three modes differ only when pc == 0xFFFF or topCarry is true"): elsewhere a step under one reading of the
bound is the step under any other. -/
def Obligations.BoundModesAgreeOffTheTop : Prop :=
  ∀ (s : State) (m : PcBoundMode), s.pc ≠ 0xFFFF → s.topCarry = false →
    (∀ t, step s = .next t → step (s.withPcBound m) = .next (t.withPcBound m)) ∧
    (∀ r, step s = .fault r → step (s.withPcBound m) = .fault r)

/-- R90, R97, R98, R180: no cycle runs from a terminal status; only the HALT trap halts a run, only the termination check
finishes it, and the errors of a run are KeyboardInputError, IllegalTrap of an unknown vector, and IllegalOpcode of RTI
or RES. -/
def Obligations.EndsOfARunHaveTheirCauses : Prop :=
  (∀ s : State, s.status ≠ .running → step s = .fault .runEnded) ∧
  ∀ (i : Instr) (s t : State), s.status = .running → exec i s = .next t →
    (t.status = .halted → i = .trap 0x25#8) ∧ t.status ≠ .finished ∧
    (∀ e, t.status = .errored e →
      e = .keyboardInputError ∨ (∃ v, i = .trap v ∧ knownVector v = false ∧ e = .illegalTrap v) ∨
      (i = .rti ∧ e = .illegalOpcode 0x8#4) ∨ (i = .res ∧ e = .illegalOpcode 0xD#4))

/-- R182, R183: what a raised error leaves: PC the fetch address + 1, COND unchanged, R7 written by a TRAP and no other
register, and memory as it was but for the keyboard words of an earlier poll. -/
def Obligations.ErrorsArePrecise : Prop :=
  ∀ (i : Instr) (s t : State) (e : Error), s.status = .running → exec i s = .next t → t.status = .errored e →
    t.pc = s.pc ∧ t.cond = s.cond ∧
    ((∀ v, i ≠ .trap v) → t.regs = s.regs ∧ t.out = s.out ∧ t.flushed = s.flushed) ∧
    (∀ v, i = .trap v → t.regs = s.regs.set 7 s.pc) ∧
    (∀ a, a ≠ s.cfg.kbsrAddr → a ≠ s.cfg.kbdrAddr → t.mem.read a = s.mem.read a)

/-- R34, R98, R99 (the spec's decision D11) and spec/93_implementation_defined.md rows 5, 6, 21: every Running state has a
next state, unless its cycle stalls on exhausted input under INPUT_END = Stall (the fault inputStall: log entry 4); no step
refuses, no scan of PUTS or PUTSP is cut off (log entry 9), and a terminal status answers runEnded (log entry 11). -/
def Obligations.StepAnswersUnlessInputStalls : Prop :=
  ∀ s : State,
    (s.status = .running → s.cfg.inputEnd = .fail → ∃ t, step s = .next t) ∧
    (s.status = .running → s.cfg.inputEnd = .stall → (∃ t, step s = .next t) ∨ step s = .fault .inputStall) ∧
    (s.status ≠ .running → step s = .fault .runEnded)

/-! ### Frames -/

/-- R22, R161: a register an instruction does not write is unchanged: ADD, AND, NOT, LD, LDI, LDR, LEA write DR; JSR, JSRR
and TRAP write R7, GETC and IN also R0; BR, JMP, ST, STI, STR, RTI, RES write none. -/
def Obligations.OtherRegistersUnchanged : Prop :=
  ∀ (i : Instr) (s t : State) (r : Reg), exec i s = .next t → r ∉ i.mayWrite → t.reg r = s.reg r

/-- R29, R161: only ADD, AND, NOT, LD, LDI, LDR, LEA and the IN routine write COND. -/
def Obligations.OnlyListedInstructionsWriteCond : Prop :=
  ∀ (i : Instr) (s t : State), exec i s = .next t → i.writesCond = false → t.cond = s.cond

/-- R29, R31: of the instructions only BR reads COND, and nothing reads COUNT. Whatever COND or COUNT was before, every other
instruction does the same, and leaves COND either written alike or as it was. -/
def Obligations.OnlyBranchReadsCondAndNothingReadsCount : Prop :=
  (∀ (i : Instr) (s t : State) (c : Word), i.readsCond = false → exec i s = .next t →
    ∃ d, exec i { s with cond := c } = .next { t with cond := d } ∧ (d = t.cond ∨ (d = c ∧ t.cond = s.cond))) ∧
  (∀ (i : Instr) (s t : State) (c : Word), exec i s = .next t → exec i { s with count := c } = .next { t with count := c })

/-- R95: no handler but those of BR, JMP, JSR and JSRR writes PC or topCarry. -/
def Obligations.OnlyControlTransfersWritePc : Prop :=
  ∀ (i : Instr) (s t : State), exec i s = .next t → i.writesPc = false → t.pc = s.pc ∧ t.topCarry = s.topCarry

/-- R31, R9: no step changes COUNT or a parameter. -/
def Obligations.CountAndParametersNeverChange : Prop :=
  ∀ s t : State, step s = .next t → t.count = s.count ∧ t.cfg = s.cfg

/-- R43, R46, R58: an instruction that neither stores nor reads memory (ADD, AND, NOT, LEA, BR, JMP, JSR, JSRR, RTI, RES,
the routines GETC, OUT, IN, HALT and an unknown vector) leaves every word of memory as it was; one that reads but does
not store (LD, LDI, LDR, PUTS, PUTSP) leaves every word but KBSR and KBDR, and those too when it took no input byte. -/
def Obligations.FormsThatDoNotStoreKeepMemory : Prop :=
  ∀ (i : Instr) (s t : State), exec i s = .next t → i.stores = false →
    (i.readsMemory = false → ∀ a, t.mem.read a = s.mem.read a) ∧
    (∀ a, a ≠ s.cfg.kbsrAddr → a ≠ s.cfg.kbdrAddr → t.mem.read a = s.mem.read a) ∧
    (i.readsMemory = true → t.inp = s.inp → ∀ a, t.mem.read a = s.mem.read a)

/-- R134, R135, R136: the frame of the stores. Every word but the one stored to reads as before (for STI as the pointer
read left it), and no register, flag, PC, output or status changes but for the error of STI's pointer read. -/
def Obligations.StoresChangeOneWord : Prop :=
  (∀ (sr : Reg) (offset9 : BitVec 9) (s t : State), exec (.st sr offset9) s = .next t →
    t = { s with mem := t.mem } ∧ t.mem.read (pcRelative s offset9) = s.reg sr ∧
    ∀ a, a ≠ pcRelative s offset9 → t.mem.read a = s.mem.read a) ∧
  (∀ (sr baseR : Reg) (offset6 : BitVec 6) (s t : State), exec (.str sr baseR offset6) s = .next t →
    t = { s with mem := t.mem } ∧ t.mem.read (basePlusOffset s baseR offset6) = s.reg sr ∧
    ∀ a, a ≠ basePlusOffset s baseR offset6 → t.mem.read a = s.mem.read a) ∧
  (∀ (sr : Reg) (offset9 : BitVec 9) (s t u : State) (p : Word), memRead (pcRelative s offset9) s = .ok p u →
    exec (.sti sr offset9) s = .next t →
    t = { s with mem := t.mem, inp := u.inp } ∧ t.mem.read p = s.reg sr ∧ ∀ a, a ≠ p → t.mem.read a = u.mem.read a)

/-- R194, R193, R98: a step only appends to the output, only takes input from the front, and never unflushes (for states
with no more flushed than emitted, which the invariant gives). -/
def Obligations.OutputGrowsAndInputIsConsumed : Prop :=
  ∀ s t : State, step s = .next t → s.flushed ≤ s.out.length →
    s.out <+: t.out ∧ t.inp <:+ s.inp ∧ s.flushed ≤ t.flushed ∧ t.flushed ≤ t.out.length

/-! ### Invariants, reset and launch -/

/-- R26, R30, R31, R35, R48, R180, R194: every step keeps the invariant. -/
def Obligations.EveryStepKeepsInvariant : Prop :=
  ∀ s t : State, s.Inv → step s = .next t → t.Inv

/-- R36, R210 (what `State.reset` is the reset of: log entries 2 to 6): the state after reset satisfies the invariant. -/
def Obligations.ResetSatisfiesInvariant : Prop := State.reset.Inv

/-- R36, R210, R211: every state an accepted launch with well-formed parameters gives satisfies the invariant. -/
def Obligations.LaunchSatisfiesInvariant : Prop :=
  ∀ (cfg : Config) (startPc : Option Word) (images : List ImageSource) (inp : List Byte) (s : State),
    cfg.WellFormed = true → launch cfg startPc images inp = .ok s → s.Inv

/-- R36, R210, R212 (the spec's decision D14), R211 and spec/93_implementation_defined.md row 14: the value of every piece
of state after an accepted launch, memory being the loader's from the first image alone, whatever paths follow it. -/
def Obligations.LaunchedStateValues : Prop :=
  ∀ (cfg : Config) (startPc : Option Word) (bytes : List Byte) (rest : List ImageSource) (inp : List Byte)
    (origin : Word) (mem : Memory),
    loadImage bytes = .ok (origin, mem) →
    ∃ s, launch cfg startPc (.stream bytes false :: rest) inp = .ok s ∧
      (∀ r, s.reg r = 0) ∧ s.cond = 0x0002 ∧ s.count = 0 ∧ s.status = .running ∧ s.mem = mem ∧ s.inp = inp ∧
      s.out = [] ∧ s.flushed = 0 ∧ s.topCarry = false ∧ s.cfg = cfg ∧
      (startPc = none → s.pc = origin) ∧ (∀ a, startPc = some a → s.pc = a)

/-- R51, R52: an image of a big-endian origin and words that fit is loaded from the origin upward, every other word 0. -/
def Obligations.LoaderPlacesImageWords : Prop :=
  ∀ (origin : Word) (ws : List Word), ws.length ≤ 65536 - origin.toNat →
    ∃ mem, loadImage (imageBytes (origin :: ws)) = .ok (origin, mem) ∧
      (∀ (k : Nat) (h : k < ws.length), mem.read (origin + BitVec.ofNat 16 k) = ws[k]) ∧
      (∀ a, (∀ k < ws.length, a ≠ origin + BitVec.ofNat 16 k) → mem.read a = 0)

/-- R53 (D17), R211: the launches refused, each with its error. -/
def Obligations.RefusedLaunches : Prop :=
  ∀ (cfg : Config) (startPc : Option Word) (rest : List ImageSource) (inp : List Byte),
    launch cfg startPc [] inp = .error .notEnoughArguments ∧
    (∀ path cause, launch cfg startPc (.cannotOpen path cause :: rest) inp = .error (.incorrectFileName path cause)) ∧
    (∀ bytes, launch cfg startPc (.stream bytes true :: rest) inp = .error .badFile) ∧
    (∀ bytes, bytes.length < 2 → launch cfg startPc (.stream bytes false :: rest) inp = .error .badFile) ∧
    (∀ bytes, bytes.length % 2 = 1 → launch cfg startPc (.stream bytes false :: rest) inp = .error .badFile) ∧
    (∀ (origin : Word) (ws : List Word), 65536 - origin.toNat < ws.length →
      launch cfg startPc (.stream (imageBytes (origin :: ws)) false :: rest) inp = .error .badFile)

/-- R195 (the spec's decisions D13 and D25, log entry 7; for every value of the two OPEN statuses): the exit status the
host sees of each end of a run and of a refused launch; an accepted launch has none yet, and ERROR_EXIT_STATUS is one
number for every error. -/
def Obligations.ExitStatusOfEachEnd : Prop :=
  exitStatus .running = none ∧ (∃ n, exitStatus .halted = some n ∧ n ≠ 0) ∧ exitStatus .finished = some 0 ∧
  (∀ e, ∃ n, exitStatus (.errored e) = some n ∧ n ≠ 0) ∧
  (∀ (cfg : Config) (startPc : Option Word) (images : List ImageSource) (inp : List Byte),
    (∀ e, launch cfg startPc images inp = .error e →
      ∃ n, launchExitStatus (launch cfg startPc images inp) = some n ∧ n ≠ 0) ∧
    (∀ s, launch cfg startPc images inp = .ok s → launchExitStatus (launch cfg startPc images inp) = none)) ∧
  ∀ e d, launchExitStatus (.error e) = exitStatus (.errored d)
end

