-- ==== Sys2Proof/Laws/State.lean ====
section
/-! SUPPORT. What each state update does to each field: one lemma per field per update, so that no later proof unfolds a
record update. -/

namespace Sys2Proof.Machine

variable (s : State)

@[simp] theorem setReg_regs (r : Reg) (v : Word) : (s.setReg r v).regs = s.regs.set r.val v r.isLt := rfl
@[simp] theorem setReg_pc (r : Reg) (v : Word) : (s.setReg r v).pc = s.pc := rfl
@[simp] theorem setReg_cond (r : Reg) (v : Word) : (s.setReg r v).cond = s.cond := rfl
@[simp] theorem setReg_count (r : Reg) (v : Word) : (s.setReg r v).count = s.count := rfl
@[simp] theorem setReg_mem (r : Reg) (v : Word) : (s.setReg r v).mem = s.mem := rfl
@[simp] theorem setReg_status (r : Reg) (v : Word) : (s.setReg r v).status = s.status := rfl
@[simp] theorem setReg_inp (r : Reg) (v : Word) : (s.setReg r v).inp = s.inp := rfl
@[simp] theorem setReg_out (r : Reg) (v : Word) : (s.setReg r v).out = s.out := rfl
@[simp] theorem setReg_flushed (r : Reg) (v : Word) : (s.setReg r v).flushed = s.flushed := rfl
@[simp] theorem setReg_topCarry (r : Reg) (v : Word) : (s.setReg r v).topCarry = s.topCarry := rfl
@[simp] theorem setReg_cfg (r : Reg) (v : Word) : (s.setReg r v).cfg = s.cfg := rfl

@[simp] theorem setPc_regs (v : Word) : (s.setPc v).regs = s.regs := rfl
@[simp] theorem setPc_pc (v : Word) : (s.setPc v).pc = v := rfl
@[simp] theorem setPc_cond (v : Word) : (s.setPc v).cond = s.cond := rfl
@[simp] theorem setPc_count (v : Word) : (s.setPc v).count = s.count := rfl
@[simp] theorem setPc_mem (v : Word) : (s.setPc v).mem = s.mem := rfl
@[simp] theorem setPc_status (v : Word) : (s.setPc v).status = s.status := rfl
@[simp] theorem setPc_inp (v : Word) : (s.setPc v).inp = s.inp := rfl
@[simp] theorem setPc_out (v : Word) : (s.setPc v).out = s.out := rfl
@[simp] theorem setPc_flushed (v : Word) : (s.setPc v).flushed = s.flushed := rfl
@[simp] theorem setPc_topCarry (v : Word) : (s.setPc v).topCarry = (if s.cfg.pcBound = .stopAfterTop then false else s.topCarry) := rfl
@[simp] theorem setPc_cfg (v : Word) : (s.setPc v).cfg = s.cfg := rfl

@[simp] theorem setcc_regs (v : Word) : (s.setcc v).regs = s.regs := rfl
@[simp] theorem setcc_pc (v : Word) : (s.setcc v).pc = s.pc := rfl
@[simp] theorem setcc_cond (v : Word) : (s.setcc v).cond = flagOf v := rfl
@[simp] theorem setcc_count (v : Word) : (s.setcc v).count = s.count := rfl
@[simp] theorem setcc_mem (v : Word) : (s.setcc v).mem = s.mem := rfl
@[simp] theorem setcc_status (v : Word) : (s.setcc v).status = s.status := rfl
@[simp] theorem setcc_inp (v : Word) : (s.setcc v).inp = s.inp := rfl
@[simp] theorem setcc_out (v : Word) : (s.setcc v).out = s.out := rfl
@[simp] theorem setcc_flushed (v : Word) : (s.setcc v).flushed = s.flushed := rfl
@[simp] theorem setcc_topCarry (v : Word) : (s.setcc v).topCarry = s.topCarry := rfl
@[simp] theorem setcc_cfg (v : Word) : (s.setcc v).cfg = s.cfg := rfl

@[simp] theorem writeResult_regs (r : Reg) (v : Word) : (s.writeResult r v).regs = s.regs.set r.val v r.isLt := rfl
@[simp] theorem writeResult_pc (r : Reg) (v : Word) : (s.writeResult r v).pc = s.pc := rfl
@[simp] theorem writeResult_cond (r : Reg) (v : Word) : (s.writeResult r v).cond = flagOf v := rfl
@[simp] theorem writeResult_count (r : Reg) (v : Word) : (s.writeResult r v).count = s.count := rfl
@[simp] theorem writeResult_mem (r : Reg) (v : Word) : (s.writeResult r v).mem = s.mem := rfl
@[simp] theorem writeResult_status (r : Reg) (v : Word) : (s.writeResult r v).status = s.status := rfl
@[simp] theorem writeResult_inp (r : Reg) (v : Word) : (s.writeResult r v).inp = s.inp := rfl
@[simp] theorem writeResult_out (r : Reg) (v : Word) : (s.writeResult r v).out = s.out := rfl
@[simp] theorem writeResult_flushed (r : Reg) (v : Word) : (s.writeResult r v).flushed = s.flushed := rfl
@[simp] theorem writeResult_topCarry (r : Reg) (v : Word) : (s.writeResult r v).topCarry = s.topCarry := rfl
@[simp] theorem writeResult_cfg (r : Reg) (v : Word) : (s.writeResult r v).cfg = s.cfg := rfl

@[simp] theorem memWrite_regs (a v : Word) : (s.memWrite a v).regs = s.regs := rfl
@[simp] theorem memWrite_pc (a v : Word) : (s.memWrite a v).pc = s.pc := rfl
@[simp] theorem memWrite_cond (a v : Word) : (s.memWrite a v).cond = s.cond := rfl
@[simp] theorem memWrite_count (a v : Word) : (s.memWrite a v).count = s.count := rfl
@[simp] theorem memWrite_mem (a v : Word) : (s.memWrite a v).mem = s.mem.write a v := rfl
@[simp] theorem memWrite_status (a v : Word) : (s.memWrite a v).status = s.status := rfl
@[simp] theorem memWrite_inp (a v : Word) : (s.memWrite a v).inp = s.inp := rfl
@[simp] theorem memWrite_out (a v : Word) : (s.memWrite a v).out = s.out := rfl
@[simp] theorem memWrite_flushed (a v : Word) : (s.memWrite a v).flushed = s.flushed := rfl
@[simp] theorem memWrite_topCarry (a v : Word) : (s.memWrite a v).topCarry = s.topCarry := rfl
@[simp] theorem memWrite_cfg (a v : Word) : (s.memWrite a v).cfg = s.cfg := rfl

@[simp] theorem trapEntry_regs : (s.trapEntry).regs = s.regs.set 7 s.pc := rfl
@[simp] theorem trapEntry_pc : (s.trapEntry).pc = s.pc := rfl
@[simp] theorem trapEntry_cond : (s.trapEntry).cond = s.cond := rfl
@[simp] theorem trapEntry_count : (s.trapEntry).count = s.count := rfl
@[simp] theorem trapEntry_mem : (s.trapEntry).mem = s.mem := rfl
@[simp] theorem trapEntry_status : (s.trapEntry).status = s.status := rfl
@[simp] theorem trapEntry_inp : (s.trapEntry).inp = s.inp := rfl
@[simp] theorem trapEntry_out : (s.trapEntry).out = s.out := rfl
@[simp] theorem trapEntry_flushed : (s.trapEntry).flushed = s.flushed := rfl
@[simp] theorem trapEntry_topCarry : (s.trapEntry).topCarry = s.topCarry := rfl
@[simp] theorem trapEntry_cfg : (s.trapEntry).cfg = s.cfg := rfl

@[simp] theorem raise_regs (e : Error) : (s.raise e).regs = s.regs := rfl
@[simp] theorem raise_pc (e : Error) : (s.raise e).pc = s.pc := rfl
@[simp] theorem raise_cond (e : Error) : (s.raise e).cond = s.cond := rfl
@[simp] theorem raise_count (e : Error) : (s.raise e).count = s.count := rfl
@[simp] theorem raise_mem (e : Error) : (s.raise e).mem = s.mem := rfl
@[simp] theorem raise_status (e : Error) : (s.raise e).status = .errored e := rfl
@[simp] theorem raise_inp (e : Error) : (s.raise e).inp = s.inp := rfl
@[simp] theorem raise_out (e : Error) : (s.raise e).out = s.out := rfl
@[simp] theorem raise_flushed (e : Error) : (s.raise e).flushed = s.flushed := rfl
@[simp] theorem raise_topCarry (e : Error) : (s.raise e).topCarry = s.topCarry := rfl
@[simp] theorem raise_cfg (e : Error) : (s.raise e).cfg = s.cfg := rfl

@[simp] theorem halt_regs : (s.halt).regs = s.regs := rfl
@[simp] theorem halt_pc : (s.halt).pc = s.pc := rfl
@[simp] theorem halt_cond : (s.halt).cond = s.cond := rfl
@[simp] theorem halt_count : (s.halt).count = s.count := rfl
@[simp] theorem halt_mem : (s.halt).mem = s.mem := rfl
@[simp] theorem halt_status : (s.halt).status = .halted := rfl
@[simp] theorem halt_inp : (s.halt).inp = s.inp := rfl
@[simp] theorem halt_out : (s.halt).out = s.out := rfl
@[simp] theorem halt_flushed : (s.halt).flushed = s.flushed := rfl
@[simp] theorem halt_topCarry : (s.halt).topCarry = s.topCarry := rfl
@[simp] theorem halt_cfg : (s.halt).cfg = s.cfg := rfl

@[simp] theorem finish_regs : (s.finish).regs = s.regs := rfl
@[simp] theorem finish_pc : (s.finish).pc = s.pc := rfl
@[simp] theorem finish_cond : (s.finish).cond = s.cond := rfl
@[simp] theorem finish_count : (s.finish).count = s.count := rfl
@[simp] theorem finish_mem : (s.finish).mem = s.mem := rfl
@[simp] theorem finish_status : (s.finish).status = .finished := rfl
@[simp] theorem finish_inp : (s.finish).inp = s.inp := rfl
@[simp] theorem finish_out : (s.finish).out = s.out := rfl
@[simp] theorem finish_flushed : (s.finish).flushed = s.flushed := rfl
@[simp] theorem finish_topCarry : (s.finish).topCarry = s.topCarry := rfl
@[simp] theorem finish_cfg : (s.finish).cfg = s.cfg := rfl

@[simp] theorem outByte_regs (b : Byte) : (s.outByte b).regs = s.regs := rfl
@[simp] theorem outByte_pc (b : Byte) : (s.outByte b).pc = s.pc := rfl
@[simp] theorem outByte_cond (b : Byte) : (s.outByte b).cond = s.cond := rfl
@[simp] theorem outByte_count (b : Byte) : (s.outByte b).count = s.count := rfl
@[simp] theorem outByte_mem (b : Byte) : (s.outByte b).mem = s.mem := rfl
@[simp] theorem outByte_status (b : Byte) : (s.outByte b).status = s.status := rfl
@[simp] theorem outByte_inp (b : Byte) : (s.outByte b).inp = s.inp := rfl
@[simp] theorem outByte_out (b : Byte) : (s.outByte b).out = s.out ++ [b] := rfl
@[simp] theorem outByte_flushed (b : Byte) : (s.outByte b).flushed = s.flushed := rfl
@[simp] theorem outByte_topCarry (b : Byte) : (s.outByte b).topCarry = s.topCarry := rfl
@[simp] theorem outByte_cfg (b : Byte) : (s.outByte b).cfg = s.cfg := rfl

@[simp] theorem outBytes_regs (bs : List Byte) : (s.outBytes bs).regs = s.regs := rfl
@[simp] theorem outBytes_pc (bs : List Byte) : (s.outBytes bs).pc = s.pc := rfl
@[simp] theorem outBytes_cond (bs : List Byte) : (s.outBytes bs).cond = s.cond := rfl
@[simp] theorem outBytes_count (bs : List Byte) : (s.outBytes bs).count = s.count := rfl
@[simp] theorem outBytes_mem (bs : List Byte) : (s.outBytes bs).mem = s.mem := rfl
@[simp] theorem outBytes_status (bs : List Byte) : (s.outBytes bs).status = s.status := rfl
@[simp] theorem outBytes_inp (bs : List Byte) : (s.outBytes bs).inp = s.inp := rfl
@[simp] theorem outBytes_out (bs : List Byte) : (s.outBytes bs).out = s.out ++ bs := rfl
@[simp] theorem outBytes_flushed (bs : List Byte) : (s.outBytes bs).flushed = s.flushed := rfl
@[simp] theorem outBytes_topCarry (bs : List Byte) : (s.outBytes bs).topCarry = s.topCarry := rfl
@[simp] theorem outBytes_cfg (bs : List Byte) : (s.outBytes bs).cfg = s.cfg := rfl

@[simp] theorem flush_regs : (s.flush).regs = s.regs := rfl
@[simp] theorem flush_pc : (s.flush).pc = s.pc := rfl
@[simp] theorem flush_cond : (s.flush).cond = s.cond := rfl
@[simp] theorem flush_count : (s.flush).count = s.count := rfl
@[simp] theorem flush_mem : (s.flush).mem = s.mem := rfl
@[simp] theorem flush_status : (s.flush).status = s.status := rfl
@[simp] theorem flush_inp : (s.flush).inp = s.inp := rfl
@[simp] theorem flush_out : (s.flush).out = s.out := rfl
@[simp] theorem flush_flushed : (s.flush).flushed = s.out.length := rfl
@[simp] theorem flush_topCarry : (s.flush).topCarry = s.topCarry := rfl
@[simp] theorem flush_cfg : (s.flush).cfg = s.cfg := rfl

@[simp] theorem advancePc_regs : (s.advancePc).regs = s.regs := rfl
@[simp] theorem advancePc_pc : (s.advancePc).pc = s.pc + 1 := rfl
@[simp] theorem advancePc_cond : (s.advancePc).cond = s.cond := rfl
@[simp] theorem advancePc_count : (s.advancePc).count = s.count := rfl
@[simp] theorem advancePc_mem : (s.advancePc).mem = s.mem := rfl
@[simp] theorem advancePc_status : (s.advancePc).status = s.status := rfl
@[simp] theorem advancePc_inp : (s.advancePc).inp = s.inp := rfl
@[simp] theorem advancePc_out : (s.advancePc).out = s.out := rfl
@[simp] theorem advancePc_flushed : (s.advancePc).flushed = s.flushed := rfl
@[simp] theorem advancePc_topCarry : (s.advancePc).topCarry = (if s.cfg.pcBound = .stopAfterTop then decide (s.pc = 0xFFFF) else s.topCarry) := rfl
@[simp] theorem advancePc_cfg : (s.advancePc).cfg = s.cfg := rfl

@[simp] theorem latchKey_regs (b : Byte) : (s.latchKey b).regs = s.regs := by
  unfold State.latchKey; split <;> rfl
@[simp] theorem latchKey_pc (b : Byte) : (s.latchKey b).pc = s.pc := by
  unfold State.latchKey; split <;> rfl
@[simp] theorem latchKey_cond (b : Byte) : (s.latchKey b).cond = s.cond := by
  unfold State.latchKey; split <;> rfl
@[simp] theorem latchKey_count (b : Byte) : (s.latchKey b).count = s.count := by
  unfold State.latchKey; split <;> rfl
@[simp] theorem latchKey_status (b : Byte) : (s.latchKey b).status = s.status := by
  unfold State.latchKey; split <;> rfl
@[simp] theorem latchKey_inp (b : Byte) : (s.latchKey b).inp = s.inp := by
  unfold State.latchKey; split <;> rfl
@[simp] theorem latchKey_out (b : Byte) : (s.latchKey b).out = s.out := by
  unfold State.latchKey; split <;> rfl
@[simp] theorem latchKey_flushed (b : Byte) : (s.latchKey b).flushed = s.flushed := by
  unfold State.latchKey; split <;> rfl
@[simp] theorem latchKey_topCarry (b : Byte) : (s.latchKey b).topCarry = s.topCarry := by
  unfold State.latchKey; split <;> rfl
@[simp] theorem latchKey_cfg (b : Byte) : (s.latchKey b).cfg = s.cfg := by
  unfold State.latchKey; split <;> rfl

@[simp] theorem reservedOp_regs (n : BitVec 4) : (s.reservedOp n).regs = s.regs := by
  unfold State.reservedOp; split <;> rfl
@[simp] theorem reservedOp_pc (n : BitVec 4) : (s.reservedOp n).pc = s.pc := by
  unfold State.reservedOp; split <;> rfl
@[simp] theorem reservedOp_cond (n : BitVec 4) : (s.reservedOp n).cond = s.cond := by
  unfold State.reservedOp; split <;> rfl
@[simp] theorem reservedOp_count (n : BitVec 4) : (s.reservedOp n).count = s.count := by
  unfold State.reservedOp; split <;> rfl
@[simp] theorem reservedOp_mem (n : BitVec 4) : (s.reservedOp n).mem = s.mem := by
  unfold State.reservedOp; split <;> rfl
@[simp] theorem reservedOp_inp (n : BitVec 4) : (s.reservedOp n).inp = s.inp := by
  unfold State.reservedOp; split <;> rfl
@[simp] theorem reservedOp_out (n : BitVec 4) : (s.reservedOp n).out = s.out := by
  unfold State.reservedOp; split <;> rfl
@[simp] theorem reservedOp_flushed (n : BitVec 4) : (s.reservedOp n).flushed = s.flushed := by
  unfold State.reservedOp; split <;> rfl
@[simp] theorem reservedOp_topCarry (n : BitVec 4) : (s.reservedOp n).topCarry = s.topCarry := by
  unfold State.reservedOp; split <;> rfl
@[simp] theorem reservedOp_cfg (n : BitVec 4) : (s.reservedOp n).cfg = s.cfg := by
  unfold State.reservedOp; split <;> rfl

/-- Reading a register after writing one. -/
@[simp] theorem reg_setReg (r q : Reg) (v : Word) : (s.setReg r v).reg q = if q = r then v else s.reg q := by
  simp only [State.reg, State.setReg, Vector.get_eq_getElem, Vector.getElem_set, Fin.ext_iff, eq_comm]

@[simp] theorem reg_writeResult (r q : Reg) (v : Word) :
    (s.writeResult r v).reg q = if q = r then v else s.reg q := reg_setReg s r q v

@[simp] theorem reg_trapEntry (q : Reg) : s.trapEntry.reg q = if q = 7 then s.pc else s.reg q := reg_setReg s 7 q s.pc

/-- Registers are what `regs` holds, so an update that keeps `regs` keeps every register. -/
theorem reg_congr {s t : State} (h : t.regs = s.regs) (r : Reg) : t.reg r = s.reg r := by
  simp only [State.reg, h]

/-- `outBytes` is `OutByte` of each byte in turn. -/
theorem outBytes_eq_foldl (bs : List Byte) : s.outBytes bs = bs.foldl State.outByte s := by
  induction bs generalizing s with
  | nil => simp [State.outBytes]
  | cons b bs ih => rw [List.foldl_cons, ← ih]; simp [State.outBytes, State.outByte]

end Sys2Proof.Machine
end

