-- ==== Sys2Proof/Laws/Memory.lean ====
section
/-! SUPPORT. The laws of memory: reading after writing, and the canonical form every operation keeps. -/

namespace Sys2Proof.Machine

theorem readByte_eraseByte (m : Memory) (k j : Nat) :
    (m.eraseByte k).readByte j = if j = k then Memory.unlisted else m.readByte j := by
  induction m with
  | nil => simp [Memory.eraseByte, Memory.readByte]
  | cons c m ih =>
    obtain ⟨a, b⟩ := c
    rw [Memory.eraseByte, List.filter_cons]
    change Memory.readByte (if (a != k) = true then (a, b) :: Memory.eraseByte m k else Memory.eraseByte m k) j = _
    replace ih : Memory.readByte (Memory.eraseByte m k) j = _ := ih
    by_cases hak : a = k
    · subst hak
      simp only [bne_self_eq_false, Bool.false_eq_true, if_false, ih, Memory.readByte]
      by_cases hj : j = a <;> simp [hj, eq_comm]
    · have : (a != k) = true := by simpa using hak
      simp only [this, if_true, Memory.readByte, ih]
      by_cases hj : a = j
      · subst hj; simp [hak]
      · simp [hj]

theorem readByte_insertByte (m : Memory) (k j : Nat) (v : Byte) (h : ∀ c ∈ m, c.1 ≠ k) :
    (m.insertByte k v).readByte j = if j = k then v else m.readByte j := by
  induction m with
  | nil => by_cases hj : k = j <;> simp [Memory.insertByte, Memory.readByte, hj, eq_comm]
  | cons c m ih =>
    obtain ⟨a, b⟩ := c
    have hak : a ≠ k := h (a, b) (by simp)
    have ih := ih fun c hc => h c (by simp [hc])
    rw [Memory.insertByte]
    split
    · by_cases hj : k = j
      · simp [Memory.readByte, hj]
      · simp [Memory.readByte, hj, Ne.symm hj]
    · by_cases haj : a = j
      · subst haj; simp [Memory.readByte, hak]
      · simp [Memory.readByte, haj, ih]

/-- A byte reads as what was written to it, every other byte as before, in every memory. -/
theorem readByte_writeByte (m : Memory) (k j : Nat) (v : Byte) :
    (m.writeByte k v).readByte j = if j = k then v else m.readByte j := by
  unfold Memory.writeByte
  split
  · next h => rw [readByte_eraseByte, h]
  · rw [readByte_insertByte _ _ _ _ (by simp [Memory.eraseByte]), readByte_eraseByte]
    by_cases h : j = k <;> simp [h]

theorem append_bytes (v : Word) : v.extractLsb' 8 8 ++ v.extractLsb' 0 8 = v := by
  have h := BitVec.extractLsb'_append_extractLsb'_eq_extractLsb' (w := 16) (start₁ := 0) (start₂ := 8) (len₁ := 8)
    (len₂ := 8) (x := v) rfl
  rw [h]
  exact BitVec.extractLsb'_eq_self

/-- A word reads as what was written to it, every other word as before, in every memory (R43, R57). -/
theorem read_write (m : Memory) (a b v : Word) : (m.write a v).read b = if b = a then v else m.read b := by
  unfold Memory.read Memory.write
  simp only [readByte_writeByte]
  by_cases h : b = a
  · subst h
    simp [append_bytes]
  · have hn : b.toNat ≠ a.toNat := fun e => h (BitVec.eq_of_toNat_eq e)
    have h1 : ¬ (2 * b.toNat = 2 * a.toNat + 1) := by omega
    have h2 : ¬ (2 * b.toNat = 2 * a.toNat) := by omega
    have h4 : ¬ (2 * b.toNat + 1 = 2 * a.toNat) := by omega
    simp [h, h1, h2, h4]

/-- `M[b]` after a store. -/
@[simp] theorem word_memWrite (s : State) (a b v : Word) :
    (s.memWrite a v).word b = if b = a then v else s.word b := read_write s.mem a b v

theorem word_congr {s t : State} (h : t.mem = s.mem) (a : Word) : t.word a = s.word a := by
  simp only [State.word, h]

/-! ### The canonical form -/

theorem eraseByte_wf {m : Memory} (h : m.wf) (k : Nat) : (m.eraseByte k).wf :=
  ⟨h.1.filter _, fun c hc => h.2 c (List.mem_of_mem_filter hc)⟩

theorem mem_insertByte {m : Memory} {k : Nat} {v : Byte} {c : Host.Cell} (h : c ∈ m.insertByte k v) :
    c = (k, v) ∨ c ∈ m := by
  induction m with
  | nil => simpa [Memory.insertByte] using h
  | cons d m ih =>
    obtain ⟨a, b⟩ := d
    rw [Memory.insertByte] at h
    split at h
    · simpa using h
    · rcases List.mem_cons.1 h with h | h
      · simp [h]
      · rcases ih h with h | h <;> simp [h]

theorem insertByte_wf {m : Memory} (h : m.wf) {k : Nat} {v : Byte} (hk : ∀ c ∈ m, c.1 ≠ k) (hb : k < 131072)
    (hv : v ≠ Memory.unlisted) : (m.insertByte k v).wf := by
  refine ⟨?_, fun c hc => ?_⟩
  · obtain ⟨hp, -⟩ := h
    induction m with
    | nil => simp [Memory.insertByte]
    | cons d m ih =>
      obtain ⟨a, b⟩ := d
      rw [List.pairwise_cons] at hp
      have hak : a ≠ k := hk (a, b) (by simp)
      rw [Memory.insertByte]
      split
      · next hlt =>
        refine List.pairwise_cons.2 ⟨fun c hc => ?_, List.pairwise_cons.2 hp⟩
        rcases List.mem_cons.1 hc with rfl | hc
        · exact hlt
        · exact hlt.trans (hp.1 c hc)
      · next hge =>
        refine List.pairwise_cons.2 ⟨fun c hc => ?_, ih (fun c hc => hk c (by simp [hc])) hp.2⟩
        rcases mem_insertByte hc with rfl | hc
        · change a < k; omega
        · exact hp.1 c hc
  · rcases mem_insertByte hc with rfl | hc
    · exact ⟨hb, hv⟩
    · exact h.2 c hc

theorem writeByte_wf {m : Memory} (h : m.wf) {k : Nat} (hb : k < 131072) (v : Byte) : (m.writeByte k v).wf := by
  unfold Memory.writeByte
  split
  · exact eraseByte_wf h k
  · next hv => exact insertByte_wf (eraseByte_wf h k) (by simp [Memory.eraseByte]) hb hv

/-- Every store keeps the canonical form. -/
theorem write_wf {m : Memory} (h : m.wf) (a v : Word) : (m.write a v).wf :=
  writeByte_wf (writeByte_wf h (by have := a.isLt; omega) _) (by have := a.isLt; omega) _

/-- Two memories in canonical form that read alike are equal. -/
theorem eq_of_readByte_eq {m n : Memory} (hm : m.wf) (hn : n.wf) (h : ∀ k, m.readByte k = n.readByte k) : m = n := by
  have low : ∀ {a : Nat} {l : Memory}, (∀ c ∈ l, a < c.1) → ∀ k ≤ a, l.readByte k = Memory.unlisted := by
    intro a l hl k hk
    induction l with
    | nil => rfl
    | cons c l ih =>
      have h1 : a < c.1 := hl c (by simp)
      have h2 : ¬ c.1 = k := by omega
      rw [Memory.readByte, if_neg h2]
      exact ih fun c hc => hl c (by simp [hc])
  induction m generalizing n with
  | nil =>
    cases n with
    | nil => rfl
    | cons d n =>
      have := h d.1
      rw [Memory.readByte, Memory.readByte, if_pos rfl] at this
      exact absurd this.symm (hn.2 d (by simp)).2
  | cons c m ih =>
    have hmp := List.pairwise_cons.1 hm.1
    cases n with
    | nil =>
      have := h c.1
      rw [Memory.readByte, Memory.readByte, if_pos rfl] at this
      exact absurd this (hm.2 c (by simp)).2
    | cons d n =>
      have hnp := List.pairwise_cons.1 hn.1
      have hcd : c.1 = d.1 := by
        rcases Nat.lt_trichotomy c.1 d.1 with hlt | he | hlt
        · have h1 := h c.1
          have h2 : ¬ d.1 = c.1 := by omega
          rw [Memory.readByte, if_pos rfl, Memory.readByte, if_neg h2,
            low (fun x hx => hnp.1 x hx) c.1 hlt.le] at h1
          exact absurd h1 (hm.2 c (by simp)).2
        · exact he
        · have h1 := h d.1
          have h2 : ¬ c.1 = d.1 := by omega
          rw [Memory.readByte, if_neg h2, Memory.readByte, if_pos rfl,
            low (fun x hx => hmp.1 x hx) d.1 hlt.le] at h1
          exact absurd h1.symm (hn.2 d (by simp)).2
      have hv : c.2 = d.2 := by
        have h1 := h c.1
        rwa [Memory.readByte, if_pos rfl, Memory.readByte, if_pos hcd.symm] at h1
      have hrest : m = n := by
        refine ih ⟨hmp.2, fun x hx => hm.2 x (by simp [hx])⟩ ⟨hnp.2, fun x hx => hn.2 x (by simp [hx])⟩ fun k => ?_
        by_cases hk : k ≤ c.1
        · rw [low (fun x hx => hmp.1 x hx) k hk, low (fun x hx => hnp.1 x hx) k (by omega)]
        · have h1 := h k
          have h2 : ¬ c.1 = k := by omega
          have h3 : ¬ d.1 = k := by omega
          rwa [Memory.readByte, if_neg h2, Memory.readByte, if_neg h3] at h1
      rw [hrest, Prod.ext hcd hv]

/-- Memory after reset is in canonical form. -/
theorem reset_wf : State.reset.mem.wf := by decide

end Sys2Proof.Machine
end

