-- ==== Sys2Proof/Laws/Access.lean ====
section
/-! SUPPORT. What each access can do, said once: the host byte read, the keyboard poll, the memory read. -/

namespace Sys2Proof.Machine

/-! ### Composing accesses -/

theorem bind_eq_ok {α β : Type} {x : Access α} {f : α → State → Access β} {v : β} {t : State}
    (h : x.bind f = .ok v t) : ∃ u s1, x = .ok u s1 ∧ f u s1 = .ok v t := by
  cases x with
  | ok u s1 => exact ⟨u, s1, rfl, h⟩
  | ended s1 => cases h
  | stuck r => cases h

theorem bind_eq_ended {α β : Type} {x : Access α} {f : α → State → Access β} {t : State}
    (h : x.bind f = .ended t) : x = .ended t ∨ ∃ u s1, x = .ok u s1 ∧ f u s1 = .ended t := by
  cases x with
  | ok u s1 => exact .inr ⟨u, s1, rfl, h⟩
  | ended s1 => cases h; exact .inl rfl
  | stuck r => cases h

theorem bind_eq_stuck {α β : Type} {x : Access α} {f : α → State → Access β} {r : Fault}
    (h : x.bind f = .stuck r) : x = .stuck r ∨ ∃ u s1, x = .ok u s1 ∧ f u s1 = .stuck r := by
  cases x with
  | ok u s1 => exact .inr ⟨u, s1, rfl, h⟩
  | ended s1 => cases h
  | stuck q => cases h; exact .inl rfl

theorem andThen_eq_next {α : Type} {x : Access α} {k : α → State → Outcome State Fault Refusal} {t : State}
    (h : x.andThen k = .next t) : x = .ended t ∨ ∃ u s1, x = .ok u s1 ∧ k u s1 = .next t := by
  cases x with
  | ok u s1 => exact .inr ⟨u, s1, rfl, h⟩
  | ended s1 => cases h; exact .inl rfl
  | stuck r => cases h

@[simp] theorem ok_bind {α β : Type} (v : α) (s : State) (f : α → State → Access β) : (Access.ok v s).bind f = f v s :=
  rfl

@[simp] theorem ended_bind {α β : Type} (s : State) (f : α → State → Access β) :
    (Access.ended s).bind f = .ended s := rfl

@[simp] theorem stuck_bind {α β : Type} (r : Fault) (f : α → State → Access β) :
    (Access.stuck r).bind f = .stuck r := rfl

@[simp] theorem ok_andThen {α : Type} (v : α) (s : State) (k : α → State → Outcome State Fault Refusal) :
    (Access.ok v s).andThen k = k v s := rfl

@[simp] theorem ended_andThen {α : Type} (s : State) (k : α → State → Outcome State Fault Refusal) :
    (Access.ended s).andThen k = .next s := rfl

@[simp] theorem stuck_andThen {α : Type} (r : Fault) (k : α → State → Outcome State Fault Refusal) :
    (Access.stuck r).andThen k = .fault r := rfl

/-! ### The host byte (R193) -/

/-- What `InByte` answers, by the input and INPUT_END. -/
theorem inByte_cases (s : State) :
    (∃ b rest, s.inp = b :: rest ∧ inByte s = .ok b { s with inp := rest }) ∨
    (s.inp = [] ∧ s.cfg.inputEnd = .fail ∧ inByte s = .ended (s.raise .keyboardInputError)) ∨
    (s.inp = [] ∧ s.cfg.inputEnd = .stall ∧ inByte s = .stuck .inputStall) := by
  unfold inByte
  cases hi : s.inp with
  | cons b rest => exact .inl ⟨b, rest, rfl, rfl⟩
  | nil =>
    cases he : s.cfg.inputEnd with
    | fail => exact .inr (.inl ⟨rfl, rfl, rfl⟩)
    | stall => exact .inr (.inr ⟨rfl, rfl, rfl⟩)

/-! ### The memory read (R44, R45) -/

/-- What `MemRead` answers: the stored word, or the word a poll left with one input byte gone, or the end of the
cycle, or no next state. -/
theorem memRead_cases (a : Word) (s : State) :
    (a ≠ s.cfg.kbsrAddr ∧ memRead a s = .ok (s.word a) s) ∨
    (a = s.cfg.kbsrAddr ∧ ∃ b rest, s.inp = b :: rest ∧
      memRead a s = .ok ((({ s with inp := rest } : State).latchKey b).word a) (({ s with inp := rest } : State).latchKey b)) ∨
    (a = s.cfg.kbsrAddr ∧ s.inp = [] ∧ s.cfg.inputEnd = .fail ∧ memRead a s = .ended (s.raise .keyboardInputError)) ∨
    (a = s.cfg.kbsrAddr ∧ s.inp = [] ∧ s.cfg.inputEnd = .stall ∧ memRead a s = .stuck .inputStall) := by
  unfold memRead keyboardPoll
  by_cases h : a = s.cfg.kbsrAddr
  · rw [if_pos h]
    rcases inByte_cases s with ⟨b, rest, hi, he⟩ | ⟨hi, hm, he⟩ | ⟨hi, hm, he⟩ <;> rw [he]
    · exact .inr (.inl ⟨h, b, rest, hi, rfl⟩)
    · exact .inr (.inr (.inl ⟨h, hi, hm, rfl⟩))
    · exact .inr (.inr (.inr ⟨h, hi, hm, rfl⟩))
  · exact .inl ⟨h, by rw [if_neg h]⟩

/-- A read of any address but KBSR_ADDR is the stored word, with no side effect (R44). -/
theorem memRead_plain {a : Word} {s : State} (h : a ≠ s.cfg.kbsrAddr) : memRead a s = .ok (s.word a) s := by
  simp [memRead, h]

/-- What completed reads leave: everything but memory and input as it was, memory changed at most in the two keyboard
words, the input shorter by the bytes taken. -/
structure Polled (s t : State) : Prop where
  regs : t.regs = s.regs
  pc : t.pc = s.pc
  cond : t.cond = s.cond
  count : t.count = s.count
  status : t.status = s.status
  out : t.out = s.out
  flushed : t.flushed = s.flushed
  topCarry : t.topCarry = s.topCarry
  cfg : t.cfg = s.cfg
  inp : t.inp <:+ s.inp
  word : ∀ a, a ≠ s.cfg.kbsrAddr → a ≠ s.cfg.kbdrAddr → t.word a = s.word a
  wf : s.mem.wf → t.mem.wf

theorem Polled.refl (s : State) : Polled s s :=
  ⟨rfl, rfl, rfl, rfl, rfl, rfl, rfl, rfl, rfl, List.suffix_refl _, fun _ _ _ => rfl, id⟩

theorem Polled.trans {s t u : State} (h : Polled s t) (g : Polled t u) : Polled s u where
  regs := g.regs.trans h.regs
  pc := g.pc.trans h.pc
  cond := g.cond.trans h.cond
  count := g.count.trans h.count
  status := g.status.trans h.status
  out := g.out.trans h.out
  flushed := g.flushed.trans h.flushed
  topCarry := g.topCarry.trans h.topCarry
  cfg := g.cfg.trans h.cfg
  inp := g.inp.trans h.inp
  word a h1 h2 := (g.word a (by rw [h.cfg]; exact h1) (by rw [h.cfg]; exact h2)).trans (h.word a h1 h2)
  wf hw := g.wf (h.wf hw)

/-- A poll writes KBSR and KBDR only. -/
theorem latchKey_word_other (s : State) (b : Byte) {a : Word} (h1 : a ≠ s.cfg.kbsrAddr) (h2 : a ≠ s.cfg.kbdrAddr) :
    (s.latchKey b).word a = s.word a := by
  unfold State.latchKey
  split <;> simp [h1, h2]

theorem latchKey_wf {s : State} (h : s.mem.wf) (b : Byte) : (s.latchKey b).mem.wf := by
  unfold State.latchKey
  split
  · exact write_wf (write_wf h _ _) _ _
  · exact write_wf (m := s.mem) h s.cfg.kbsrAddr 0

/-- KBSR after a poll (R45, R49), the two addresses being distinct (R48). -/
theorem latchKey_kbsr (s : State) (b : Byte) (h : s.cfg.kbsrAddr ≠ s.cfg.kbdrAddr) :
    (s.latchKey b).word s.cfg.kbsrAddr =
      if b = 0 then 0 else kbsrSetValue s.cfg.kbsrSet (s.word s.cfg.kbsrAddr) := by
  unfold State.latchKey
  by_cases hb : b = 0
  · simp [hb]
  · rw [if_pos hb, if_neg hb]; simp [h]

/-- KBDR after a poll (R45, R49), the two addresses being distinct (R48). -/
theorem latchKey_kbdr (s : State) (b : Byte) (h : s.cfg.kbsrAddr ≠ s.cfg.kbdrAddr) :
    (s.latchKey b).word s.cfg.kbdrAddr = if b = 0 then s.word s.cfg.kbdrAddr else b.setWidth 16 := by
  unfold State.latchKey
  by_cases hb : b = 0
  · simp [hb, Ne.symm h]
  · rw [if_pos hb, if_neg hb]; simp

theorem polled_latchKey {s : State} {b : Byte} {rest : List Byte} (h : s.inp = b :: rest) :
    Polled s (({ s with inp := rest } : State).latchKey b) where
  regs := latchKey_regs _ _
  pc := latchKey_pc _ _
  cond := latchKey_cond _ _
  count := latchKey_count _ _
  status := latchKey_status _ _
  out := latchKey_out _ _
  flushed := latchKey_flushed _ _
  topCarry := latchKey_topCarry _ _
  cfg := latchKey_cfg _ _
  inp := by rw [latchKey_inp, h]; exact List.suffix_cons _ _
  word a h1 h2 := latchKey_word_other _ _ h1 h2
  wf hw := latchKey_wf (s := { s with inp := rest }) hw b

/-- A completed read leaves a polled state, and its value is the word stored there. -/
theorem memRead_ok {a v : Word} {s t : State} (h : memRead a s = .ok v t) : Polled s t ∧ v = t.word a := by
  rcases memRead_cases a s with ⟨-, e⟩ | ⟨-, b, rest, hi, e⟩ | ⟨-, -, -, e⟩ | ⟨-, -, -, e⟩ <;> rw [e] at h <;> cases h
  · exact ⟨Polled.refl s, rfl⟩
  · exact ⟨polled_latchKey hi, rfl⟩

/-- A read that ends the cycle raised KeyboardInputError and did nothing else (R45, R182). -/
theorem memRead_ended {a : Word} {s t : State} (h : memRead a s = .ended t) :
    a = s.cfg.kbsrAddr ∧ s.inp = [] ∧ s.cfg.inputEnd = .fail ∧ t = s.raise .keyboardInputError := by
  rcases memRead_cases a s with ⟨-, e⟩ | ⟨-, b, rest, hi, e⟩ | ⟨ha, hi, hm, e⟩ | ⟨-, -, -, e⟩ <;> rw [e] at h <;> cases h
  exact ⟨ha, hi, hm, rfl⟩

/-- A read with no next state stalled on exhausted input (R99). -/
theorem memRead_stuck {a : Word} {s : State} {r : Fault} (h : memRead a s = .stuck r) :
    s.inp = [] ∧ s.cfg.inputEnd = .stall ∧ r = .inputStall := by
  rcases memRead_cases a s with ⟨-, e⟩ | ⟨-, b, rest, hi, e⟩ | ⟨ha, hi, hm, e⟩ | ⟨-, hi, hm, e⟩ <;> rw [e] at h <;> cases h
  exact ⟨hi, hm, rfl⟩

/-- `InByte` that completed took the first byte. -/
theorem inByte_ok {s t : State} {b : Byte} (h : inByte s = .ok b t) : ∃ rest, s.inp = b :: rest ∧ t = { s with inp := rest } := by
  rcases inByte_cases s with ⟨c, rest, hi, e⟩ | ⟨-, -, e⟩ | ⟨-, -, e⟩ <;> rw [e] at h <;> cases h
  exact ⟨rest, hi, rfl⟩

theorem inByte_ended {s t : State} (h : inByte s = .ended t) :
    s.inp = [] ∧ s.cfg.inputEnd = .fail ∧ t = s.raise .keyboardInputError := by
  rcases inByte_cases s with ⟨c, rest, hi, e⟩ | ⟨hi, hm, e⟩ | ⟨-, -, e⟩ <;> rw [e] at h <;> cases h
  exact ⟨hi, hm, rfl⟩

theorem inByte_stuck {s : State} {r : Fault} (h : inByte s = .stuck r) :
    s.inp = [] ∧ s.cfg.inputEnd = .stall ∧ r = .inputStall := by
  rcases inByte_cases s with ⟨c, rest, hi, e⟩ | ⟨-, -, e⟩ | ⟨hi, hm, e⟩ <;> rw [e] at h <;> cases h
  exact ⟨hi, hm, rfl⟩

end Sys2Proof.Machine
end

