-- ==== Sys2Proof/Laws/Encode.lean ====
section
/-! SUPPORT. The encoder's formats as numbers, the fields read back from them, and the table's masks as fields. -/

namespace Sys2Proof

theorem toNat_append_add {n m : Nat} (x : BitVec n) (y : BitVec m) :
    (x ++ y).toNat = x.toNat * 2 ^ m + y.toNat := by
  rw [BitVec.toNat_append, ← Nat.shiftLeft_add_eq_or_of_lt y.isLt, Nat.shiftLeft_eq]

/-- A field as a number: the source's `(i >> lo) & (2^n - 1)` (R71). -/
theorem field_toNat (w : Word) (lo n : Nat) : (field w lo n).toNat = w.toNat / 2 ^ lo % 2 ^ n := by
  simp [field, Nat.shiftRight_eq_div_pow]

theorem regField_val (w : Word) (lo : Nat) : (regField w lo).val = w.toNat / 2 ^ lo % 8 := field_toNat w lo 3

theorem regBits_toNat (r : Reg) : (regBits r).toNat = r.val := rfl

theorem encodeOpR_toNat (op : BitVec 4) (dr sr1 sr2 : Reg) :
    (encodeOpR op dr sr1 sr2).toNat = op.toNat * 4096 + dr.val * 512 + sr1.val * 64 + sr2.val := by
  unfold encodeOpR
  rw [toNat_append_add, toNat_append_add, toNat_append_add, toNat_append_add, toNat_append_add]
  simp only [regBits_toNat, BitVec.toNat_ofNat]
  omega

theorem encodeOpI_toNat (op : BitVec 4) (dr sr1 : Reg) (imm5 : BitVec 5) :
    (encodeOpI op dr sr1 imm5).toNat = op.toNat * 4096 + dr.val * 512 + sr1.val * 64 + 32 + imm5.toNat := by
  unfold encodeOpI
  rw [toNat_append_add, toNat_append_add, toNat_append_add, toNat_append_add]
  simp only [regBits_toNat, BitVec.toNat_ofNat]
  omega

theorem encodePc9_toNat (op : BitVec 4) (top : BitVec 3) (offset9 : BitVec 9) :
    (encodePc9 op top offset9).toNat = op.toNat * 4096 + top.toNat * 512 + offset9.toNat := by
  unfold encodePc9
  rw [toNat_append_add, toNat_append_add]
  omega

theorem encodeBase6_toNat (op : BitVec 4) (top : BitVec 3) (baseR : Reg) (low : BitVec 6) :
    (encodeBase6 op top baseR low).toNat = op.toNat * 4096 + top.toNat * 512 + baseR.val * 64 + low.toNat := by
  unfold encodeBase6
  rw [toNat_append_add, toNat_append_add, toNat_append_add]
  simp only [regBits_toNat]
  omega

theorem encodeJsr_toNat (op : BitVec 4) (offset11 : BitVec 11) :
    (encodeJsr op offset11).toNat = op.toNat * 4096 + 2048 + offset11.toNat := by
  unfold encodeJsr
  rw [toNat_append_add, toNat_append_add]
  simp only [BitVec.toNat_ofNat]
  omega

theorem encodeTrap_toNat (op : BitVec 4) (vector : BitVec 8) :
    (encodeTrap op vector).toNat = op.toNat * 4096 + vector.toNat := by
  unfold encodeTrap
  rw [toNat_append_add, toNat_append_add]
  simp only [BitVec.toNat_ofNat]
  omega

theorem encodeNone_toNat (op : BitVec 4) : (encodeNone op).toNat = op.toNat * 4096 := by
  unfold encodeNone
  rw [toNat_append_add]
  simp only [BitVec.toNat_ofNat]
  omega

/-! ### The formats bit by bit -/

theorem regBits_regField (w : Word) (lo : Nat) : regBits (regField w lo) = field w lo 3 := rfl

theorem encodeOpR_bit (op : BitVec 4) (dr sr1 sr2 : Reg) {i : Nat} (hi : i < 16) :
    (encodeOpR op dr sr1 sr2).getLsbD i =
      if i < 3 then (regBits sr2).getLsbD i
      else if i < 6 then false
      else if i < 9 then (regBits sr1).getLsbD (i - 6)
      else if i < 12 then (regBits dr).getLsbD (i - 9)
      else op.getLsbD (i - 12) := by
  change BitVec.getLsbD (w := 4 + 3 + 3 + 1 + 2 + 3) (op ++ regBits dr ++ regBits sr1 ++ 0#1 ++ 0#2 ++ regBits sr2) i = _
  simp only [BitVec.getLsbD_append, BitVec.getLsbD_zero]
  interval_cases i <;> simp

theorem encodeOpI_bit (op : BitVec 4) (dr sr1 : Reg) (imm5 : BitVec 5) {i : Nat} (hi : i < 16) :
    (encodeOpI op dr sr1 imm5).getLsbD i =
      if i < 5 then imm5.getLsbD i
      else if i < 6 then true
      else if i < 9 then (regBits sr1).getLsbD (i - 6)
      else if i < 12 then (regBits dr).getLsbD (i - 9)
      else op.getLsbD (i - 12) := by
  change BitVec.getLsbD (w := 4 + 3 + 3 + 1 + 5) (op ++ regBits dr ++ regBits sr1 ++ 1#1 ++ imm5) i = _
  simp only [BitVec.getLsbD_append]
  interval_cases i <;> simp

theorem encodePc9_bit (op : BitVec 4) (top : BitVec 3) (offset9 : BitVec 9) {i : Nat} (hi : i < 16) :
    (encodePc9 op top offset9).getLsbD i =
      if i < 9 then offset9.getLsbD i else if i < 12 then top.getLsbD (i - 9) else op.getLsbD (i - 12) := by
  change BitVec.getLsbD (w := 4 + 3 + 9) (op ++ top ++ offset9) i = _
  simp only [BitVec.getLsbD_append]
  interval_cases i <;> simp

theorem encodeBase6_bit (op : BitVec 4) (top : BitVec 3) (baseR : Reg) (low : BitVec 6) {i : Nat} (hi : i < 16) :
    (encodeBase6 op top baseR low).getLsbD i =
      if i < 6 then low.getLsbD i
      else if i < 9 then (regBits baseR).getLsbD (i - 6)
      else if i < 12 then top.getLsbD (i - 9)
      else op.getLsbD (i - 12) := by
  change BitVec.getLsbD (w := 4 + 3 + 3 + 6) (op ++ top ++ regBits baseR ++ low) i = _
  simp only [BitVec.getLsbD_append]
  interval_cases i <;> simp

theorem encodeJsr_bit (op : BitVec 4) (offset11 : BitVec 11) {i : Nat} (hi : i < 16) :
    (encodeJsr op offset11).getLsbD i =
      if i < 11 then offset11.getLsbD i else if i < 12 then true else op.getLsbD (i - 12) := by
  change BitVec.getLsbD (w := 4 + 1 + 11) (op ++ 1#1 ++ offset11) i = _
  simp only [BitVec.getLsbD_append]
  interval_cases i <;> simp

theorem encodeTrap_bit (op : BitVec 4) (vector : BitVec 8) {i : Nat} (hi : i < 16) :
    (encodeTrap op vector).getLsbD i =
      if i < 8 then vector.getLsbD i else if i < 12 then false else op.getLsbD (i - 12) := by
  change BitVec.getLsbD (w := 4 + 4 + 8) (op ++ 0#4 ++ vector) i = _
  simp only [BitVec.getLsbD_append, BitVec.getLsbD_zero]
  interval_cases i <;> simp

theorem encodeNone_bit (op : BitVec 4) {i : Nat} (_hi : i < 16) :
    (encodeNone op).getLsbD i = if i < 12 then false else op.getLsbD (i - 12) := by
  change BitVec.getLsbD (w := 4 + 12) (op ++ 0#12) i = _
  simp only [BitVec.getLsbD_append, BitVec.getLsbD_zero]

/-- A field is the bit vector with its number. -/
theorem field_eq {w : Word} {lo n : Nat} {v : BitVec n} (h : w.toNat / 2 ^ lo % 2 ^ n = v.toNat) : field w lo n = v :=
  BitVec.eq_of_toNat_eq (by rw [field_toNat, h])

/-- A register field is the register with its number. -/
theorem regField_eq {w : Word} {lo : Nat} {r : Reg} (h : w.toNat / 2 ^ lo % 8 = r.val) : regField w lo = r :=
  Fin.ext (by rw [regField_val, h])

/-! ### The masks of spec/opcode_table.json, as fields -/

theorem mask_opcode (w : Word) (n : BitVec 4) : w &&& 0xF000 = n.setWidth 16 <<< 12 ↔ field w 12 4 = n := by
  constructor
  · intro h
    ext i hi
    have := congrArg (·.getLsbD (12 + i)) h
    interval_cases i <;> simpa [field] using this
  · rintro rfl
    ext i hi
    interval_cases i <;> simp [field]

theorem mask_opcode_bit5 (w : Word) (n : BitVec 4) (b : BitVec 1) :
    w &&& 0xF020 = n.setWidth 16 <<< 12 ||| b.setWidth 16 <<< 5 ↔ field w 12 4 = n ∧ field w 5 1 = b := by
  constructor
  · intro h
    constructor
    · ext i hi
      have := congrArg (·.getLsbD (12 + i)) h
      interval_cases i <;> simpa [field] using this
    · ext i hi
      have := congrArg (·.getLsbD (5 + i)) h
      interval_cases i; simpa [field] using this
  · rintro ⟨rfl, rfl⟩
    ext i hi
    interval_cases i <;> simp [field]

theorem mask_opcode_bit11 (w : Word) (n : BitVec 4) (b : BitVec 1) :
    w &&& 0xF800 = n.setWidth 16 <<< 12 ||| b.setWidth 16 <<< 11 ↔ field w 12 4 = n ∧ field w 11 1 = b := by
  constructor
  · intro h
    constructor
    · ext i hi
      have := congrArg (·.getLsbD (12 + i)) h
      interval_cases i <;> simpa [field] using this
    · ext i hi
      have := congrArg (·.getLsbD (11 + i)) h
      interval_cases i; simpa [field] using this
  · rintro ⟨rfl, rfl⟩
    ext i hi
    interval_cases i <;> simp [field]

end Sys2Proof
end

