-- ==== Sys2Proof/Laws/Scan.lean ====
section
/-! SUPPORT. The scan of PUTS and PUTSP (R154, R156): its bound is never used up, because each pass over the address
space reads KBSR_ADDR and so takes a byte of the finite input; and so the bound cannot be seen. -/

namespace Sys2Proof.Machine

/-- An emitter writes output only. -/
structure EmitsOnly (emit : Word → State → State) : Prop where
  eq : ∀ w s, ∃ bs, emit w s = s.outBytes bs

theorem emitChar_emits : EmitsOnly emitChar := ⟨fun w _ => ⟨[lowByte w], rfl⟩⟩

theorem emitPacked_emits : EmitsOnly emitPacked := ⟨fun w s => by
  unfold emitPacked
  split
  · exact ⟨[lowByte w, highByte w], by simp [State.outByte, State.outBytes]⟩
  · exact ⟨[lowByte w], rfl⟩⟩

/-- How many words the scan can still read from `a` before the input is used up. -/
def scanNeed (a : Word) (s : State) : Nat := 65536 * s.inp.length + (s.cfg.kbsrAddr - a).toNat

theorem scanNeed_lt_scanBound (a : Word) (s : State) : scanNeed a s < scanBound s := by
  have := (s.cfg.kbsrAddr - a).isLt
  unfold scanNeed scanBound
  omega

/-- Each word that was read leaves less need. -/
theorem scanNeed_step {emit : Word → State → State} (he : EmitsOnly emit) {a w : Word} {s t : State}
    (h : memRead a s = .ok w t) : scanNeed (a + 1) (emit w t) < scanNeed a s := by
  obtain ⟨bs, hbs⟩ := he.eq w t
  rw [hbs]
  unfold scanNeed
  simp only [outBytes_inp, outBytes_cfg]
  have h1 : (s.cfg.kbsrAddr - (a + 1)).toNat < 65536 := (s.cfg.kbsrAddr - (a + 1)).isLt
  rcases memRead_cases a s with ⟨hn, e⟩ | ⟨ha, b, rest, hi, e⟩ | ⟨-, -, -, e⟩ | ⟨-, -, -, e⟩ <;> rw [e] at h <;> cases h
  · have h2 : (s.cfg.kbsrAddr - (a + 1)).toNat < (s.cfg.kbsrAddr - a).toNat := by
      have hne : s.cfg.kbsrAddr.toNat ≠ a.toNat := fun he => hn (BitVec.eq_of_toNat_eq he.symm)
      have := s.cfg.kbsrAddr.isLt
      have := a.isLt
      have h16 : (1 : Word).toNat = 1 := rfl
      simp only [BitVec.toNat_sub, BitVec.toNat_add, h16]
      omega
    omega
  · simp only [latchKey_inp, latchKey_cfg, hi, List.length_cons]
    omega

/-- A bound above the need is never used up. -/
theorem scan_ne_unending {emit : Word → State → State} (he : EmitsOnly emit) :
    ∀ {n : Nat} {a : Word} {s : State}, scanNeed a s < n → scan emit n a s ≠ .stuck .scanUnending := by
  intro n
  induction n with
  | zero => intro a s h; omega
  | succ n ih =>
    intro a s hn h
    rw [scan] at h
    rcases bind_eq_stuck h with h | ⟨w, t, hr, h⟩
    · exact absurd (memRead_stuck h).2.2 (by decide)
    · split at h
      · cases h
      · exact ih (by have := scanNeed_step he hr; omega) h

/-- Two bounds above the need give the same scan. -/
theorem scan_bound_irrelevant {emit : Word → State → State} (he : EmitsOnly emit) :
    ∀ {n m : Nat} {a : Word} {s : State}, scanNeed a s < n → scanNeed a s < m → scan emit n a s = scan emit m a s := by
  intro n
  induction n with
  | zero => intro m a s h; omega
  | succ n ih =>
    intro m a s hn hm
    cases m with
    | zero => omega
    | succ m =>
      rw [scan, scan]
      cases hr : memRead a s with
      | ended t => rfl
      | stuck r => rfl
      | ok w t =>
        simp only [ok_bind]
        split
        · rfl
        · have := scanNeed_step he hr
          exact ih (by omega) (by omega)

/-- What a scan that completed or raised leaves: everything but memory, input and output as it was, the output only
longer, the memory changed at most in the keyboard words. -/
structure Scanned (s t : State) : Prop where
  regs : t.regs = s.regs
  pc : t.pc = s.pc
  cond : t.cond = s.cond
  count : t.count = s.count
  flushed : t.flushed = s.flushed
  topCarry : t.topCarry = s.topCarry
  cfg : t.cfg = s.cfg
  inp : t.inp <:+ s.inp
  out : s.out <+: t.out
  word : ∀ a, a ≠ s.cfg.kbsrAddr → a ≠ s.cfg.kbdrAddr → t.word a = s.word a
  wf : s.mem.wf → t.mem.wf

theorem Scanned.trans {s t u : State} (h : Scanned s t) (g : Scanned t u) : Scanned s u where
  regs := g.regs.trans h.regs
  pc := g.pc.trans h.pc
  cond := g.cond.trans h.cond
  count := g.count.trans h.count
  flushed := g.flushed.trans h.flushed
  topCarry := g.topCarry.trans h.topCarry
  cfg := g.cfg.trans h.cfg
  inp := g.inp.trans h.inp
  out := h.out.trans g.out
  word a h1 h2 := (g.word a (by rw [h.cfg]; exact h1) (by rw [h.cfg]; exact h2)).trans (h.word a h1 h2)
  wf hw := g.wf (h.wf hw)

theorem Polled.scanned {s t : State} (h : Polled s t) : Scanned s t :=
  ⟨h.regs, h.pc, h.cond, h.count, h.flushed, h.topCarry, h.cfg, h.inp, by rw [h.out], h.word,
    h.wf⟩

theorem scanned_outBytes (s : State) (bs : List Byte) : Scanned s (s.outBytes bs) :=
  ⟨rfl, rfl, rfl, rfl, rfl, rfl, rfl, List.suffix_refl _, List.prefix_append _ _, fun _ _ _ => rfl, id⟩

/-- A scan that completed. -/
theorem scan_ok {emit : Word → State → State} (he : EmitsOnly emit) :
    ∀ {n : Nat} {a : Word} {s t : State}, scan emit n a s = .ok () t → Scanned s t ∧ t.status = s.status := by
  intro n
  induction n with
  | zero => intro a s t h; cases h
  | succ n ih =>
    intro a s t h
    rw [scan] at h
    obtain ⟨w, s1, hr, h⟩ := bind_eq_ok h
    have hp := (memRead_ok hr).1
    split at h
    · cases h; exact ⟨hp.scanned, hp.status⟩
    · obtain ⟨bs, hbs⟩ := he.eq w s1
      rw [hbs] at h
      have h2 := ih h
      exact ⟨(hp.scanned.trans (scanned_outBytes s1 bs)).trans h2.1, h2.2.trans hp.status⟩

/-- A scan that ended the cycle raised KeyboardInputError, the earlier words' bytes emitted and not flushed (R183). -/
theorem scan_ended {emit : Word → State → State} (he : EmitsOnly emit) :
    ∀ {n : Nat} {a : Word} {s t : State}, scan emit n a s = .ended t →
      s.cfg.inputEnd = .fail ∧ ∃ u, Scanned s u ∧ t = u.raise .keyboardInputError := by
  intro n
  induction n with
  | zero => intro a s t h; cases h
  | succ n ih =>
    intro a s t h
    rw [scan] at h
    rcases bind_eq_ended h with h | ⟨w, s1, hr, h⟩
    · obtain ⟨-, -, hm, rfl⟩ := memRead_ended h
      exact ⟨hm, s, (Polled.refl s).scanned, rfl⟩
    · have hp := (memRead_ok hr).1
      split at h
      · cases h
      · obtain ⟨bs, hbs⟩ := he.eq w s1
        rw [hbs] at h
        obtain ⟨hm, u, hu, rfl⟩ := ih h
        have hc : s1.cfg.inputEnd = s.cfg.inputEnd := by rw [hp.cfg]
        exact ⟨hc ▸ hm, u, (hp.scanned.trans (scanned_outBytes s1 bs)).trans hu, rfl⟩

/-- A scan with no next state and a bound above the need stalled on exhausted input. -/
theorem scan_stuck {emit : Word → State → State} (he : EmitsOnly emit) :
    ∀ {n : Nat} {a : Word} {s : State} {r : Fault}, scanNeed a s < n → scan emit n a s = .stuck r →
      s.cfg.inputEnd = .stall ∧ r = .inputStall := by
  intro n
  induction n with
  | zero => intro a s r h; omega
  | succ n ih =>
    intro a s r hn h
    rw [scan] at h
    rcases bind_eq_stuck h with h | ⟨w, t, hr, h⟩
    · exact (memRead_stuck h).2
    · split at h
      · cases h
      · have hs := scanNeed_step he hr
        obtain ⟨hm, hq⟩ := ih (by omega) h
        obtain ⟨bs, hbs⟩ := he.eq w t
        rw [hbs] at hm
        simp only [outBytes_cfg, (memRead_ok hr).1.cfg] at hm
        exact ⟨hm, hq⟩

end Sys2Proof.Machine
end

