-- ==== Sys2Proof/Laws/Exec.lean ====
section
/-! SUPPORT. What the meanings that read memory or the host can answer, said once: one lemma per meaning, for its next
states, in terms of the accesses' own lemmas. The other meanings answer one next state, which their definitions show. -/

namespace Sys2Proof.Machine

theorem execLd_next {dr : Reg} {o : BitVec 9} {s t : State} (h : execLd dr o s = .next t) :
    (∃ v u, memRead (pcRelative s o) s = .ok v u ∧ t = u.writeResult dr v) ∨ t = s.raise .keyboardInputError := by
  rcases andThen_eq_next h with h | ⟨v, u, hr, h⟩
  · exact .inr (memRead_ended h).2.2.2
  · cases h; exact .inl ⟨v, u, hr, rfl⟩

theorem execLdr_next {dr b : Reg} {o : BitVec 6} {s t : State} (h : execLdr dr b o s = .next t) :
    (∃ v u, memRead (basePlusOffset s b o) s = .ok v u ∧ t = u.writeResult dr v) ∨ t = s.raise .keyboardInputError := by
  rcases andThen_eq_next h with h | ⟨v, u, hr, h⟩
  · exact .inr (memRead_ended h).2.2.2
  · cases h; exact .inl ⟨v, u, hr, rfl⟩

theorem execLdi_next {dr : Reg} {o : BitVec 9} {s t : State} (h : execLdi dr o s = .next t) :
    ∃ u, Polled s u ∧ ((∃ v, t = u.writeResult dr v) ∨ t = u.raise .keyboardInputError) := by
  rcases andThen_eq_next h with h | ⟨v, u, hr, h⟩
  · rcases bind_eq_ended h with h | ⟨p, u, hp, h⟩
    · exact ⟨s, Polled.refl s, .inr (memRead_ended h).2.2.2⟩
    · exact ⟨u, (memRead_ok hp).1, .inr (memRead_ended h).2.2.2⟩
  · obtain ⟨p, w, hp, hv⟩ := bind_eq_ok hr
    cases h
    exact ⟨u, (memRead_ok hp).1.trans (memRead_ok hv).1, .inl ⟨v, rfl⟩⟩

theorem execSti_next {sr : Reg} {o : BitVec 9} {s t : State} (h : execSti sr o s = .next t) :
    (∃ p u, memRead (pcRelative s o) s = .ok p u ∧ t = u.memWrite p (s.reg sr)) ∨ t = s.raise .keyboardInputError := by
  rcases andThen_eq_next h with h | ⟨p, u, hr, h⟩
  · exact .inr (memRead_ended h).2.2.2
  · cases h; exact .inl ⟨p, u, hr, by rw [reg_congr (memRead_ok hr).1.regs]⟩

theorem trapGetc_next {s t : State} (h : trapGetc s = .next t) :
    (∃ b rest, s.inp = b :: rest ∧ t = ({ s with inp := rest } : State).setReg 0 (zext b)) ∨
    t = s.raise .keyboardInputError := by
  rcases andThen_eq_next h with h | ⟨b, u, hr, h⟩
  · exact .inr (inByte_ended h).2.2
  · obtain ⟨rest, hi, rfl⟩ := inByte_ok hr
    cases h; exact .inl ⟨b, rest, hi, rfl⟩

theorem trapIn_next {s t : State} (h : trapIn s = .next t) :
    (∃ b rest, s.inp = b :: rest ∧
      t = ((({ (s.outBytes s.cfg.inPrompt).flush with inp := rest } : State).outByte b).flush).writeResult 0 (zext b)) ∨
    t = (s.outBytes s.cfg.inPrompt).flush.raise .keyboardInputError := by
  rcases andThen_eq_next h with h | ⟨b, u, hr, h⟩
  · exact .inr (inByte_ended h).2.2
  · obtain ⟨rest, hi, rfl⟩ := inByte_ok hr
    cases h; exact .inl ⟨b, rest, hi, rfl⟩

theorem trapPuts_next {s t : State} (h : trapPuts s = .next t) :
    ∃ u, Scanned s u ∧ ((u.status = s.status ∧ t = u.flush) ∨ t = u.raise .keyboardInputError) := by
  rcases andThen_eq_next h with h | ⟨_, u, hr, h⟩
  · obtain ⟨-, u, hu, rfl⟩ := scan_ended emitChar_emits h
    exact ⟨u, hu, .inr rfl⟩
  · obtain ⟨hu, hs⟩ := scan_ok emitChar_emits hr
    cases h; exact ⟨u, hu, .inl ⟨hs, rfl⟩⟩

theorem trapPutsp_next {s t : State} (h : trapPutsp s = .next t) :
    ∃ u, Scanned s u ∧ ((u.status = s.status ∧ t = u.flush) ∨ t = u.raise .keyboardInputError) := by
  rcases andThen_eq_next h with h | ⟨_, u, hr, h⟩
  · obtain ⟨-, u, hu, rfl⟩ := scan_ended emitPacked_emits h
    exact ⟨u, hu, .inr rfl⟩
  · obtain ⟨hu, hs⟩ := scan_ok emitPacked_emits hr
    cases h; exact ⟨u, hu, .inl ⟨hs, rfl⟩⟩

/-- TRAP is the routine its vector selects, run after the entry. -/
theorem execTrap_cases (v : BitVec 8) (s : State) :
    (v = 0x20 ∧ execTrap v s = trapGetc s.trapEntry) ∨ (v = 0x21 ∧ execTrap v s = trapOut s.trapEntry) ∨
    (v = 0x22 ∧ execTrap v s = trapPuts s.trapEntry) ∨ (v = 0x23 ∧ execTrap v s = trapIn s.trapEntry) ∨
    (v = 0x24 ∧ execTrap v s = trapPutsp s.trapEntry) ∨ (v = 0x25 ∧ execTrap v s = trapHalt s.trapEntry) ∨
    ((v ≠ 0x20 ∧ v ≠ 0x21 ∧ v ≠ 0x22 ∧ v ≠ 0x23 ∧ v ≠ 0x24 ∧ v ≠ 0x25) ∧
      execTrap v s = trapUnknown v s.trapEntry) := by
  unfold execTrap trapRoutine
  by_cases h0 : v = vectorGetc
  · exact .inl ⟨h0, if_pos h0⟩
  by_cases h1 : v = vectorOut
  · exact .inr (.inl ⟨h1, by rw [if_neg h0, if_pos h1]⟩)
  by_cases h2 : v = vectorPuts
  · exact .inr (.inr (.inl ⟨h2, by rw [if_neg h0, if_neg h1, if_pos h2]⟩))
  by_cases h3 : v = vectorIn
  · exact .inr (.inr (.inr (.inl ⟨h3, by rw [if_neg h0, if_neg h1, if_neg h2, if_pos h3]⟩)))
  by_cases h4 : v = vectorPutsp
  · exact .inr (.inr (.inr (.inr (.inl ⟨h4, by rw [if_neg h0, if_neg h1, if_neg h2, if_neg h3, if_pos h4]⟩))))
  by_cases h5 : v = vectorHalt
  · exact .inr (.inr (.inr (.inr (.inr (.inl
      ⟨h5, by rw [if_neg h0, if_neg h1, if_neg h2, if_neg h3, if_neg h4, if_pos h5]⟩)))))
  · exact .inr (.inr (.inr (.inr (.inr (.inr
      ⟨⟨h0, h1, h2, h3, h4, h5⟩,
        by rw [if_neg h0, if_neg h1, if_neg h2, if_neg h3, if_neg h4, if_neg h5]⟩)))))

/-- A step from a Running state is one of: the end at the bound, a fetch that raised, or the instruction fetched. -/
theorem step_next {s t : State} (h : step s = .next t) :
    s.status = .running ∧
      ((terminationDue s = true ∧ t = s.finish) ∨
       (terminationDue s = false ∧ fetch s = .ended t) ∨
       (terminationDue s = false ∧ ∃ w u, fetch s = .ok w u ∧ exec (decode w) u.advancePc = .next t)) := by
  unfold step at h
  split at h
  · next hs =>
    refine ⟨hs, ?_⟩
    unfold cycle at h
    split at h
    · next hd => cases h; exact .inl ⟨hd, rfl⟩
    · next hd =>
      have hd : terminationDue s = false := by simpa using hd
      rcases andThen_eq_next h with h | ⟨w, u, hf, h⟩
      · exact .inr (.inl ⟨hd, h⟩)
      · exact .inr (.inr ⟨hd, w, u, hf, h⟩)
  all_goals cases h

end Sys2Proof.Machine
end

