-- ==== Sys2Proof/Laws/Launch.lean ====
section
/-! SUPPORT. What a launch can answer, said once, and the exit statuses the host sees. -/

namespace Sys2Proof

/-- Whatever an OPEN exit status is, it is not zero (R9, R195). -/
theorem NonZero.toInt_ne_zero (n : NonZero) : n.toInt ≠ 0 := by
  cases n <;> simp only [NonZero.toInt] <;> omega

namespace Machine

theorem Error.exitStatus_ne_zero (e : Error) : e.exitStatus ≠ 0 := NonZero.toInt_ne_zero _

@[simp] theorem launchExitStatus_ok (s : State) : launchExitStatus (.ok s) = exitStatus s.status := rfl

@[simp] theorem launchExitStatus_error (e : Error) : launchExitStatus (.error e) = some e.exitStatus := rfl

/-- A launch whose first path is a readable image that loads, whatever paths follow (R210, R211). -/
theorem launch_of_load {cfg : Config} {startPc : Option Word} {bytes : List Byte} {rest : List ImageSource}
    {inp : List Byte} {origin : Word} {mem : Memory} (h : loadImage bytes = .ok (origin, mem)) :
    launch cfg startPc (.stream bytes false :: rest) inp = .ok (State.start cfg startPc inp origin mem) := by
  simp [launch, h]

/-- An accepted launch is one of that form. -/
theorem launch_eq_ok {cfg : Config} {startPc : Option Word} {images : List ImageSource} {inp : List Byte} {s : State}
    (h : launch cfg startPc images inp = .ok s) :
    ∃ bytes rest origin mem, images = .stream bytes false :: rest ∧ loadImage bytes = .ok (origin, mem) ∧
      s = State.start cfg startPc inp origin mem := by
  unfold launch at h
  split at h
  · cases h
  · cases h
  · next bytes readFails rest =>
    cases readFails with
    | true => cases h
    | false =>
      rcases hl : loadImage bytes with e | ⟨origin, mem⟩
      · simp [hl] at h
      · simp only [hl] at h
        cases h
        exact ⟨bytes, rest, origin, mem, rfl, hl, rfl⟩

/-- The run of an accepted launch has started (R210): the host sees no exit status yet. -/
theorem launch_ok_status {cfg : Config} {startPc : Option Word} {images : List ImageSource} {inp : List Byte} {s : State}
    (h : launch cfg startPc images inp = .ok s) : s.status = .running := by
  obtain ⟨_, _, _, _, -, -, rfl⟩ := launch_eq_ok h
  rfl

end Machine

end Sys2Proof
end

