-- ==== Sys2Proof/Laws/PerInstr.lean ====
section
/-! SUPPORT. One lemma per instruction: the encoder's word lies in the instruction's own row of spec/opcode_table.json,
and that row is one of the table's. -/

namespace Sys2Proof.Laws.EncodedInRow

/-- The encoder's word carries the fixed bits of the instruction's table row. -/
def Statement (i : Instr) : Prop := i.tableRow.admits (encode i) = true ∧ i.tableRow ∈ opcodeTable

theorem addReg (dr : Reg) (sr1 : Reg) (sr2 : Reg) : Statement (.addReg dr sr1 sr2) := by
  refine ⟨decide_eq_true ?_, by simp [Instr.tableRow, opcodeTable]⟩
  exact (mask_opcode_bit5 _ 1#4 0#1).2 ⟨field_eq (by simp only [encode, encodeOpR_toNat, Opcode.nibble, BitVec.toNat_ofNat]; omega),
    field_eq (by simp only [encode, encodeOpR_toNat, Opcode.nibble, BitVec.toNat_ofNat]; omega)⟩

theorem addImm (dr : Reg) (sr1 : Reg) (imm5 : BitVec 5) : Statement (.addImm dr sr1 imm5) := by
  refine ⟨decide_eq_true ?_, by simp [Instr.tableRow, opcodeTable]⟩
  exact (mask_opcode_bit5 _ 1#4 1#1).2 ⟨field_eq (by simp only [encode, encodeOpI_toNat, Opcode.nibble, BitVec.toNat_ofNat]; omega),
    field_eq (by simp only [encode, encodeOpI_toNat, Opcode.nibble, BitVec.toNat_ofNat]; omega)⟩

theorem andReg (dr : Reg) (sr1 : Reg) (sr2 : Reg) : Statement (.andReg dr sr1 sr2) := by
  refine ⟨decide_eq_true ?_, by simp [Instr.tableRow, opcodeTable]⟩
  exact (mask_opcode_bit5 _ 5#4 0#1).2 ⟨field_eq (by simp only [encode, encodeOpR_toNat, Opcode.nibble, BitVec.toNat_ofNat]; omega),
    field_eq (by simp only [encode, encodeOpR_toNat, Opcode.nibble, BitVec.toNat_ofNat]; omega)⟩

theorem andImm (dr : Reg) (sr1 : Reg) (imm5 : BitVec 5) : Statement (.andImm dr sr1 imm5) := by
  refine ⟨decide_eq_true ?_, by simp [Instr.tableRow, opcodeTable]⟩
  exact (mask_opcode_bit5 _ 5#4 1#1).2 ⟨field_eq (by simp only [encode, encodeOpI_toNat, Opcode.nibble, BitVec.toNat_ofNat]; omega),
    field_eq (by simp only [encode, encodeOpI_toNat, Opcode.nibble, BitVec.toNat_ofNat]; omega)⟩

theorem not (dr : Reg) (sr : Reg) : Statement (.not dr sr) := by
  refine ⟨decide_eq_true ?_, by simp [Instr.tableRow, opcodeTable]⟩
  exact (mask_opcode _ 9#4).2 (field_eq (by simp only [encode, encodeBase6_toNat, Opcode.nibble, BitVec.toNat_ofNat]; omega))

theorem br (mask : BitVec 3) (offset9 : BitVec 9) : Statement (.br mask offset9) := by
  refine ⟨decide_eq_true ?_, by simp [Instr.tableRow, opcodeTable]⟩
  exact (mask_opcode _ 0#4).2 (field_eq (by simp only [encode, encodePc9_toNat, Opcode.nibble, BitVec.toNat_ofNat]; omega))

theorem jmp (baseR : Reg) : Statement (.jmp baseR) := by
  refine ⟨decide_eq_true ?_, by simp [Instr.tableRow, opcodeTable]⟩
  exact (mask_opcode _ 12#4).2 (field_eq (by simp only [encode, encodeBase6_toNat, Opcode.nibble, BitVec.toNat_ofNat]; omega))

theorem jsr (offset11 : BitVec 11) : Statement (.jsr offset11) := by
  refine ⟨decide_eq_true ?_, by simp [Instr.tableRow, opcodeTable]⟩
  exact (mask_opcode_bit11 _ 4#4 1#1).2 ⟨field_eq (by simp only [encode, encodeJsr_toNat, Opcode.nibble, BitVec.toNat_ofNat]; omega),
    field_eq (by simp only [encode, encodeJsr_toNat, Opcode.nibble, BitVec.toNat_ofNat]; omega)⟩

theorem jsrr (baseR : Reg) : Statement (.jsrr baseR) := by
  refine ⟨decide_eq_true ?_, by simp [Instr.tableRow, opcodeTable]⟩
  exact (mask_opcode_bit11 _ 4#4 0#1).2 ⟨field_eq (by simp only [encode, encodeBase6_toNat, Opcode.nibble, BitVec.toNat_ofNat]; omega),
    field_eq (by simp only [encode, encodeBase6_toNat, Opcode.nibble, BitVec.toNat_ofNat]; omega)⟩

theorem ld (dr : Reg) (offset9 : BitVec 9) : Statement (.ld dr offset9) := by
  refine ⟨decide_eq_true ?_, by simp [Instr.tableRow, opcodeTable]⟩
  exact (mask_opcode _ 2#4).2 (field_eq (by simp only [encode, encodePc9_toNat, Opcode.nibble, BitVec.toNat_ofNat]; omega))

theorem ldi (dr : Reg) (offset9 : BitVec 9) : Statement (.ldi dr offset9) := by
  refine ⟨decide_eq_true ?_, by simp [Instr.tableRow, opcodeTable]⟩
  exact (mask_opcode _ 10#4).2 (field_eq (by simp only [encode, encodePc9_toNat, Opcode.nibble, BitVec.toNat_ofNat]; omega))

theorem ldr (dr : Reg) (baseR : Reg) (offset6 : BitVec 6) : Statement (.ldr dr baseR offset6) := by
  refine ⟨decide_eq_true ?_, by simp [Instr.tableRow, opcodeTable]⟩
  exact (mask_opcode _ 6#4).2 (field_eq (by simp only [encode, encodeBase6_toNat, Opcode.nibble, BitVec.toNat_ofNat]; omega))

theorem lea (dr : Reg) (offset9 : BitVec 9) : Statement (.lea dr offset9) := by
  refine ⟨decide_eq_true ?_, by simp [Instr.tableRow, opcodeTable]⟩
  exact (mask_opcode _ 14#4).2 (field_eq (by simp only [encode, encodePc9_toNat, Opcode.nibble, BitVec.toNat_ofNat]; omega))

theorem st (sr : Reg) (offset9 : BitVec 9) : Statement (.st sr offset9) := by
  refine ⟨decide_eq_true ?_, by simp [Instr.tableRow, opcodeTable]⟩
  exact (mask_opcode _ 3#4).2 (field_eq (by simp only [encode, encodePc9_toNat, Opcode.nibble, BitVec.toNat_ofNat]; omega))

theorem sti (sr : Reg) (offset9 : BitVec 9) : Statement (.sti sr offset9) := by
  refine ⟨decide_eq_true ?_, by simp [Instr.tableRow, opcodeTable]⟩
  exact (mask_opcode _ 11#4).2 (field_eq (by simp only [encode, encodePc9_toNat, Opcode.nibble, BitVec.toNat_ofNat]; omega))

theorem str (sr : Reg) (baseR : Reg) (offset6 : BitVec 6) : Statement (.str sr baseR offset6) := by
  refine ⟨decide_eq_true ?_, by simp [Instr.tableRow, opcodeTable]⟩
  exact (mask_opcode _ 7#4).2 (field_eq (by simp only [encode, encodeBase6_toNat, Opcode.nibble, BitVec.toNat_ofNat]; omega))

theorem trap (vector : BitVec 8) : Statement (.trap vector) := by
  refine ⟨decide_eq_true ?_, by simp [Instr.tableRow, opcodeTable]⟩
  exact (mask_opcode _ 15#4).2 (field_eq (by simp only [encode, encodeTrap_toNat, Opcode.nibble, BitVec.toNat_ofNat]; omega))

theorem rti : Statement (.rti) := by
  refine ⟨decide_eq_true ?_, by decide⟩
  exact (mask_opcode _ 8#4).2 (field_eq (by simp only [encode, encodeNone_toNat, Opcode.nibble, BitVec.toNat_ofNat]; omega))

theorem res : Statement (.res) := by
  refine ⟨decide_eq_true ?_, by decide⟩
  exact (mask_opcode _ 13#4).2 (field_eq (by simp only [encode, encodeNone_toNat, Opcode.nibble, BitVec.toNat_ofNat]; omega))

end Sys2Proof.Laws.EncodedInRow
end

