-- ==== Sys2Proof/Tests/Slice0.lean ====
section
/-! SUPPORT. Tests of one step each, and a witness for the hypotheses of each statement. Expected values come from
spec/95_test_vectors.md (a docstring names the vector), from the formats of spec/30_encoding.md, or by hand from the rule
named. -/

namespace Sys2Proof.Tests

open Sys2Proof.Machine

/-! ### Helpers -/

/-- The state after reset but for its pc, with a word placed there. -/
def placed (pc word : Word) : State := ({ State.reset with pc := pc } : State).memWrite pc word

/-- A state with other input. -/
def fed (s : State) (bytes : List Byte) : State := { s with inp := bytes }

/-- A state with another COND. -/
def flagged (s : State) (flag : Word) : State := { s with cond := flag }

/-- A state with other parameters. -/
def under (s : State) (c : Config) : State := { s with cfg := c }

/-- What is seen of the state a step leads to. -/
def seen {α : Type} (s : State) (f : State → α) : Option α :=
  match step s with
  | .next t => some (f t)
  | .fault _ => none
  | .refused _ => none

/-! ### WellFormed: one ill-formed term for each check -/

theorem test_registers_check_refuses_8 : registersOk [0, 8] = false := by decide
theorem test_registers_check_accepts_7 : registersOk [0, 7] = true := by decide
theorem test_config_check_refuses_equal_addresses :
    ({ defaultConfig with kbdrAddr := 0xFE00 } : Config).WellFormed = false := by decide
theorem test_config_check_accepts_defaults : defaultConfig.WellFormed = true := by decide

/-- R77, R79: no instruction is ill-formed. -/
theorem every_instr_wellFormed (i : Instr) : i.WellFormed = true := by
  cases i <;> simp [Instr.WellFormed, Instr.registers, registersOk]

/-! ### Decoding: a word of each constructor, bit by bit from R72 and R75 -/

theorem test_decode_addReg : decode 0b0001_011_001_000_010#16 = .addReg 3 1 2 := by decide
theorem test_decode_addImm : decode 0b0001_001_001_1_11111#16 = .addImm 1 1 0b11111#5 := by decide
theorem test_decode_andReg : decode 0b0101_000_001_000_010#16 = .andReg 0 1 2 := by decide
theorem test_decode_andImm : decode 0b0101_000_000_1_00000#16 = .andImm 0 0 0#5 := by decide
theorem test_decode_not : decode 0b1001_001_000_111111#16 = .not 1 0 := by decide
theorem test_decode_br : decode 0b0000_010_000000010#16 = .br 0b010#3 2#9 := by decide
theorem test_decode_jmp : decode 0b1100_000_110_000000#16 = .jmp 6 := by decide
theorem test_decode_jsr : decode 0b0100_1_00000000010#16 = .jsr 2#11 := by decide
theorem test_decode_jsrr : decode 0b0100_0_00_011_000000#16 = .jsrr 3 := by decide
theorem test_decode_ld : decode 0b0010_000_000000101#16 = .ld 0 5#9 := by decide
theorem test_decode_ldi : decode 0b1010_011_000000101#16 = .ldi 3 5#9 := by decide
theorem test_decode_ldr : decode 0b0110_000_010_000000#16 = .ldr 0 2 0#6 := by decide
theorem test_decode_lea : decode 0b1110_010_000000111#16 = .lea 2 7#9 := by decide
theorem test_decode_st : decode 0b0011_011_000000010#16 = .st 3 2#9 := by decide
theorem test_decode_sti : decode 0b1011_000_000000011#16 = .sti 0 3#9 := by decide
theorem test_decode_str : decode 0b0111_001_010_000001#16 = .str 1 2 1#6 := by decide
theorem test_decode_trap : decode 0b1111_0000_00100101#16 = .trap 0x25#8 := by decide
theorem test_decode_rti : decode 0b1000_000000000000#16 = .rti := by decide
theorem test_decode_res : decode 0b1101_000100100011#16 = .res := by decide

/-- R76: O6, C12, T14 and the other unexamined bits. -/
theorem test_decode_ignores_unexamined_bits :
    decode 0x1058 = .addReg 0 1 0 ∧ decode 0x9000 = .not 0 0 ∧ decode 0xCFFF = .jmp 7 ∧
    decode 0x46FF = .jsrr 3 ∧ decode 0xFF25 = .trap 0x25#8 ∧ decode 0x8FFF = .rti := by decide

/-- R81's own encodings: NOT with bits 5:0 set, RET, HALT. -/
theorem test_encode : encode (.not 1 0) = 0x923F ∧ encode (.jmp 7) = 0xC1C0 ∧ encode (.trap 0x25#8) = 0xF025 ∧
    encode (.addImm 1 1 0x1F#5) = 0x127F ∧ encode .rti = 0x8000 := by decide

theorem test_decodeTableWord :
    decodeTableWord 16 0x4802 = some (.jsr 2#11) ∧ decodeTableWord 32 0x4802 = none := by decide

/-- The placed word is the first instruction a step runs after reset. -/
theorem test_withFetchWord : step (State.reset.withFetchWord 16 0x127F) =
    exec (.addImm 1 1 0x1F#5) (State.reset.withFetchWord 16 0x127F).advancePc := by rfl

/-! ### Operate -/

/-- O1. -/
theorem test_add_overflows_silently : seen (((placed 0x3000 0x1042).setReg 1 0x7FFF).setReg 2 1)
    (fun t => (t.reg 0, t.cond, t.pc)) = some (0x8000, 4, 0x3001) := by decide
/-- O3. -/
theorem test_add_doubles : seen ((placed 0x3000 0x1241).setReg 1 0x4000) (fun t => (t.reg 1, t.cond))
    = some (0x8000, 4) := by decide
/-- O4. -/
theorem test_add_imm_least : seen ((placed 0x3000 0x1070).setReg 1 0x10) (fun t => (t.reg 0, t.cond))
    = some (0, 2) := by decide
/-- O5. -/
theorem test_add_imm_greatest : seen ((placed 0x3000 0x106F).setReg 1 0xFFF0) (fun t => (t.reg 0, t.cond))
    = some (0xFFFF, 4) := by decide
/-- O11. -/
theorem test_and_reg : seen (((placed 0x3000 0x5042).setReg 1 0xF0F0).setReg 2 0x0FF0) (fun t => (t.reg 0, t.cond))
    = some (0x00F0, 1) := by decide
/-- O9. -/
theorem test_and_imm_sign_extends : seen ((placed 0x3000 0x507F).setReg 1 0x8000) (fun t => (t.reg 0, t.cond))
    = some (0x8000, 4) := by decide
/-- O15. -/
theorem test_not : seen ((placed 0x3000 0x923F).setReg 0 0x8001) (fun t => (t.reg 1, t.cond, t.reg 0))
    = some (0x7FFE, 1, 0x8001) := by decide

/-! ### Control -/

/-- C9. -/
theorem test_br_taken_backwards : seen (placed 0x3000 0x0F00) (fun t => (t.pc, t.cond)) = some (0x2F01, 2) := by decide
/-- C7. -/
theorem test_br_not_taken : seen (flagged (placed 0x3005 0x0402) 1) (fun t => t.pc) = some 0x3006 := by decide
/-- C12. -/
theorem test_jmp : seen ((placed 0x3000 0xC1FF).setReg 7 0x3050) (fun t => t.pc) = some 0x3050 := by decide
/-- C16. -/
theorem test_jsr_least_offset : seen (placed 0x3000 0x4C00) (fun t => (t.reg 7, t.pc, t.cond))
    = some (0x3001, 0x2C01, 2) := by decide
/-- C18. -/
theorem test_jsrr : seen ((placed 0x3010 0x40C0).setReg 3 0x4000) (fun t => (t.reg 7, t.pc))
    = some (0x3011, 0x4000) := by decide
/-- C19. -/
theorem test_jsrr_r7_falls_through : seen ((placed 0x3000 0x41C0).setReg 7 0x5000) (fun t => (t.reg 7, t.pc))
    = some (0x3001, 0x3001) := by decide

/-! ### Loads and stores -/

/-- M1. -/
theorem test_ld : seen ((placed 0x3001 0x2005).memWrite 0x3007 0x1234) (fun t => (t.reg 0, t.cond))
    = some (0x1234, 1) := by decide
/-- M2. -/
theorem test_ldi : seen (((placed 0x3004 0xA605).memWrite 0x300A 0x3009).memWrite 0x3009 0x7FFE)
    (fun t => (t.reg 3, t.cond)) = some (0x7FFE, 1) := by decide
/-- M4. -/
theorem test_ldr_wraps : seen ((placed 0x3000 0x607F).memWrite 0xFFFF 0x1234) (fun t => (t.reg 0, t.cond))
    = some (0x1234, 1) := by decide
/-- M9. -/
theorem test_ldr_polls : seen (fed ((placed 0x3000 0x6040).setReg 1 0xFE00) [0x41])
    (fun t => (t.reg 0, t.cond, t.word 0xFE00, t.word 0xFE02, t.inp)) = some (0x8000, 4, 0x8000, 0x41, []) := by decide
/-- M11. -/
theorem test_ldr_poll_fails : seen (((placed 0x3000 0x6040).setReg 0 0x1111).setReg 1 0xFE00)
    (fun t => (t.status, t.reg 0, t.cond, t.pc, t.word 0xFE00)) =
    some (.errored .keyboardInputError, 0x1111, 2, 0x3001, 0) := by decide
/-- M7. -/
theorem test_lea_sets_neg : seen (placed 0x7FFF 0xE000) (fun t => (t.reg 0, t.cond)) = some (0x8000, 4) := by decide
/-- M8. -/
theorem test_st_keeps_flags : seen (flagged ((placed 0x3000 0x3001).memWrite 0x3002 0xFFFF) 4)
    (fun t => (t.word 0x3002, t.cond)) = some (0, 4) := by decide
/-- M18. -/
theorem test_sti_pointer_polls : seen (fed ((placed 0xFDFF 0xB000).setReg 0 0x42) [0x41])
    (fun t => (t.word 0xFE00, t.word 0xFE02, t.word 0x8000)) = some (0x8000, 0x41, 0x42) := by decide
/-- M20. -/
theorem test_sti_store_does_not_poll :
    seen (fed (((placed 0x3000 0xB000).setReg 0 0x42).memWrite 0x3001 0xFE00) [0x00])
    (fun t => (t.word 0xFE00, t.inp)) = some (0x42, [0x00]) := by decide
/-- M19. -/
theorem test_str : seen (((placed 0x3000 0x7281).setReg 1 0x7FFE).setReg 2 0x3008) (fun t => (t.word 0x3009, t.cond))
    = some (0x7FFE, 2) := by decide
/-- M13, its second instruction, under OrHigh. -/
theorem test_poll_or_high : seen (under (fed (((placed 0x3001 0x6440).setReg 1 0xFE00).memWrite 0xFE00 0x1234) [0x41])
    { defaultConfig with kbsrSet := .orHigh }) (fun t => (t.reg 2, t.word 0xFE00, t.word 0xFE02))
    = some (0x9234, 0x9234, 0x41) := by decide
/-- M10. -/
theorem test_poll_zero_byte : seen (fed (((placed 0x3000 0x6040).setReg 1 0xFE00).memWrite 0xFE02 0x55) [0x00])
    (fun t => (t.reg 0, t.cond, t.word 0xFE02)) = some (0, 2, 0x55) := by decide

/-! ### Traps -/

/-- T1. -/
theorem test_getc_keeps_flags : seen (fed (flagged (placed 0x3000 0xF020) 4) [0xFF])
    (fun t => (t.reg 0, t.cond, t.out, t.reg 7, t.pc)) = some (0x00FF, 4, [], 0x3001, 0x3001) := by decide
/-- T4. -/
theorem test_out : seen ((placed 0x3000 0xF021).setReg 0 0x1241) (fun t => (t.out, t.flushed)) = some ([0x41], 1) := by
  decide
/-- T5. -/
theorem test_puts_stops_at_zero_word :
    seen ((((placed 0x3000 0xF022).setReg 0 0x4000).memWrite 0x4000 0x4100).memWrite 0x4001 0x42)
    (fun t => (t.out, t.flushed, t.reg 0)) = some ([0x00, 0x42], 2, 0x4000) := by decide
/-- T17. -/
theorem test_puts_polls : seen (fed ((placed 0x3000 0xF022).setReg 0 0xFE00) [0x41])
    (fun t => (t.out, t.word 0xFE00, t.word 0xFE02)) = some ([0x00], 0x8000, 0x41) := by decide
/-- T11. -/
theorem test_in_prompts : seen (under (fed (placed 0x3000 0xF023) [0x71]) { defaultConfig with inPrompt := [0x3E, 0x20] })
    (fun t => (t.reg 0, t.cond, t.out, t.flushed)) = some (0x71, 1, [0x3E, 0x20, 0x71], 3) := by decide
/-- T8. -/
theorem test_putsp : seen (((((placed 0x3000 0xF024).setReg 0 0x4000).memWrite 0x4000 0x4100).memWrite 0x4001
    0x42).memWrite 0x4002 0x6948) (fun t => t.out) = some [0x00, 0x41, 0x42, 0x48, 0x69] := by decide
/-- T14. -/
theorem test_halt : seen (placed 0x3000 0xFF25) (fun t => (t.status, t.reg 7, t.pc))
    = some (.halted, 0x3001, 0x3001) := by decide
/-- T16. -/
theorem test_unknown_vector : seen (placed 0x3000 0xF026) (fun t => (t.status, t.reg 7))
    = some (.errored (.illegalTrap 0x26), 0x3001) := by decide

/-! ### Reserved opcodes -/

/-- V1, both policies. -/
theorem test_rti : seen (placed 0x3000 0x8000) (fun t => (t.status, t.pc)) = some (.errored (.illegalOpcode 0x8), 0x3001) ∧
    seen (under (placed 0x3000 0x8000) { defaultConfig with reservedOp := .noOp }) (fun t => (t.status, t.pc))
    = some (.running, 0x3001) := by decide
/-- V2. -/
theorem test_res : seen (placed 0x3000 0xD123) (fun t => (t.status, t.pc))
    = some (.errored (.illegalOpcode 0xD), 0x3001) := by decide

/-! ### The cycle -/

/-- E2. -/
theorem test_fetch_polls : seen (fed (placed 0xFE00 0) [0x41]) (fun t => (t.status, t.pc, t.word 0xFE02))
    = some (.errored (.illegalOpcode 0x8), 0xFE01, 0x41) := by decide
/-- E3. -/
theorem test_fetch_fails : seen (placed 0xFE00 0) (fun t => (t.status, t.pc))
    = some (.errored .keyboardInputError, 0xFE00) := by decide
/-- E4, E5, E6: the three readings at 0xFFFF. -/
theorem test_bound_modes :
    seen (placed 0xFFFF 0x1021) (fun t => (t.reg 0, t.pc, t.status, t.topCarry)) = some (1, 0, .running, false) ∧
    seen (under (placed 0xFFFF 0x1021) { defaultConfig with pcBound := .stopAtTop })
      (fun t => (t.reg 0, t.pc, t.status, t.topCarry)) = some (0, 0xFFFF, .finished, false) ∧
    seen (under (placed 0xFFFF 0x1021) { defaultConfig with pcBound := .stopAfterTop })
      (fun t => (t.reg 0, t.pc, t.status, t.topCarry)) = some (1, 0, .running, true) := by decide
/-- E7: the branch clears topCarry. -/
theorem test_branch_clears_topCarry :
    seen (under (placed 0xFFFF 0x0FFF) { defaultConfig with pcBound := .stopAfterTop }) (fun t => (t.pc, t.topCarry))
    = some (0xFFFF, false) := by decide

/-! ### Launch, accessors, memory -/

/-- L1: `State.reset` is the launch of the image 30 00 with no input. -/
theorem test_reset_is_launch : launch defaultConfig none [.stream [0x30, 0x00] false] [] = .ok State.reset := by rfl

/-- What is seen of an accepted launch with the default parameters and no input, or the error's code. -/
def launched {α : Type} (bytes : List Byte) (f : State → α) : Except Nat α :=
  match launch defaultConfig none [.stream bytes false] [] with
  | .ok s => .ok (f s)
  | .error e => .error e.code

/-- L2. -/
theorem test_image_big_endian : launched [0x30, 0x00, 0x12, 0x34, 0xAB, 0xCD]
    (fun s => (s.pc, s.word 0x3000, s.word 0x3001, s.word 0x3002)) = .ok (0x3000, 0x1234, 0xABCD, 0) := by decide
/-- L3, L4, L6. -/
theorem test_images_refused : launched [0x30, 0x00, 0x12] (fun s => s.pc) = .error 7 ∧
    launched [] (fun s => s.pc) = .error 7 ∧ launched [0x30] (fun s => s.pc) = .error 7 ∧
    launched [0xFF, 0xFF, 0x12, 0x34, 0x56, 0x78] (fun s => s.pc) = .error 7 := by decide
/-- L5, L7. -/
theorem test_image_at_top : launched [0xFF, 0xFF, 0x12, 0x34] (fun s => (s.pc, s.word 0xFFFF)) = .ok (0xFFFF, 0x1234) ∧
    launched [0xFE, 0x00, 0x80, 0x00] (fun s => s.word 0xFE00) = .ok 0x8000 := by decide

/-- S11: the slot past the last. -/
theorem test_accessor_out_of_bounds : State.reset.getSlot 11 = .error (.outOfBounds 11) ∧
    State.reset.getSlot 9 = .ok 2 := by decide

/-- Storing what an unlisted word reads as leaves memory as reset left it; the form holds in between. -/
theorem test_memory_canonical : ((Memory.write [] 0x3000 0x1200).write 0x3000 0 = []) ∧
    (Memory.write (Memory.write [] 0x3001 0x0034) 0x3000 0x1200).wf ∧
    Memory.write (Memory.write [] 0x3001 0x0034) 0x3000 0x1200 = [(0x6000, 0x12), (0x6003, 0x34)] := by decide

/-- Table X. -/
theorem test_sext : sext 0x0F#5 = 0x000F ∧ sext 0x10#5 = 0xFFF0 ∧ sext 0x20#6 = 0xFFE0 ∧ sext 0x100#9 = 0xFF00 ∧
    sext 0x3FF#11 = 0x03FF ∧ sext 0x400#11 = 0xFC00 := by decide

/-! ### Witnesses: states and operands that meet the hypotheses of the statements -/

/-- UnexaminedBitsChangeNothing: two different words. -/
theorem witness_unexamined : (0x903F : Word) ≠ 0x9000 ∧
    0x903F &&& (decode 0x903F).examined = (0x9000 : Word) &&& (decode 0x903F).examined := by decide

/-- SignExtensionOfEveryWidth: the least and the greatest width, each on both sides of its bound. -/
theorem witness_widths : (0#1).toNat < 2 ^ (1 - 1) ∧ ¬ (1#1).toNat < 2 ^ (1 - 1) ∧ sext 1#1 = 0xFFFF ∧
    (0x7FFF#16).toNat < 2 ^ (16 - 1) ∧ ¬ (0x8000#16).toNat < 2 ^ (16 - 1) ∧ sext 0x8000#16 = 0x8000 := by decide

/-- FlagUpdateRule, RegisterAccessors: both sides of each bound. -/
theorem witness_flag_values : 32768 ≤ (0x8000 : Word).toNat ∧ (0x7FFF : Word).toNat < 32768 ∧ (1 : Word).toNat ≠ 0 ∧
    State.reset.getSlot 10 = .ok 0 ∧ State.reset.getSlot 0 = .ok 0 := by decide

/-- ReadPollsOnlyAtKbsr, KeyboardPollEffect: a byte, a zero byte, no byte under Fail, no byte under Stall. -/
theorem witness_poll_byte : State.reset.cfg.WellFormed = true ∧
    keyboardPoll (fed State.reset [0x41]) = .ok () (State.reset.latchKey 0x41) := ⟨by decide, rfl⟩
theorem witness_poll_zero_byte : keyboardPoll (fed State.reset [0x00]) = .ok () (State.reset.latchKey 0) := rfl
theorem witness_poll_fails : keyboardPoll State.reset = .ended (State.reset.raise .keyboardInputError) := rfl
theorem witness_poll_stalls : keyboardPoll (under State.reset { defaultConfig with inputEnd := .stall })
    = .stuck .inputStall := rfl
theorem witness_poll_or_high :
    (fed (under State.reset { defaultConfig with kbsrSet := .orHigh }) [0xFF]).cfg.kbsrSet = .orHigh := by decide

/-- The pattern of each instruction statement's encoding clause has a word. -/
theorem witness_patterns :
    (0x1642 : Word).extractLsb' 12 4 = 0b0001#4 ∧ (0x1642 : Word).extractLsb' 5 1 = 0#1 ∧
    (0x127F : Word).extractLsb' 5 1 = 1#1 ∧ (0x5042 : Word).extractLsb' 12 4 = 0b0101#4 ∧
    (0x5042 : Word).extractLsb' 5 1 = 0#1 ∧ (0x5020 : Word).extractLsb' 5 1 = 1#1 ∧
    (0x923F : Word).extractLsb' 12 4 = 0b1001#4 ∧ (0x0402 : Word).extractLsb' 12 4 = 0b0000#4 ∧
    (0xC1C0 : Word).extractLsb' 12 4 = 0b1100#4 ∧ (0x4802 : Word).extractLsb' 12 4 = 0b0100#4 ∧
    (0x4802 : Word).extractLsb' 11 1 = 1#1 ∧ (0x40C0 : Word).extractLsb' 11 1 = 0#1 ∧
    (0x2005 : Word).extractLsb' 12 4 = 0b0010#4 ∧ (0xA605 : Word).extractLsb' 12 4 = 0b1010#4 ∧
    (0x6080 : Word).extractLsb' 12 4 = 0b0110#4 ∧ (0xE407 : Word).extractLsb' 12 4 = 0b1110#4 ∧
    (0x3602 : Word).extractLsb' 12 4 = 0b0011#4 ∧ (0xB003 : Word).extractLsb' 12 4 = 0b1011#4 ∧
    (0x7281 : Word).extractLsb' 12 4 = 0b0111#4 ∧ (0xF025 : Word).extractLsb' 12 4 = 0b1111#4 ∧
    (0x8000 : Word).extractLsb' 12 4 = 0b1000#4 ∧ (0xD123 : Word).extractLsb' 12 4 = 0b1101#4 := by decide

/-- The state whose pc-relative address with offset 0 is KBSR_ADDR. -/
def atKbsr : State := { State.reset with pc := 0xFE00 }

/-- LoadRule, LoadIndirectRule, StoreIndirectRule: away from KBSR_ADDR; there with a byte; there without one. -/
theorem witness_load_plain : State.reset.pc + sext 0xFF#9 ≠ State.reset.cfg.kbsrAddr ∧
    State.reset.mem.read (State.reset.pc + sext 0xFF#9) ≠ State.reset.cfg.kbsrAddr := by decide
theorem witness_load_polls : memRead (atKbsr.pc + sext 0#9) (fed atKbsr [0x41]) =
    .ok ((atKbsr.latchKey 0x41).word 0xFE00) (atKbsr.latchKey 0x41) := rfl
theorem witness_load_fails : memRead (atKbsr.pc + sext 0#9) atKbsr = .ended (atKbsr.raise .keyboardInputError) := rfl

/-- The loads and STI: a read that stalls. -/
theorem witness_load_stalls : memRead (atKbsr.pc + sext 0#9) (under atKbsr { defaultConfig with inputEnd := .stall }) =
    .stuck .inputStall := rfl
theorem witness_ldr_stalls :
    memRead ((State.reset.setReg 1 0xFE00).reg 1 + sext 0#6)
      (under (State.reset.setReg 1 0xFE00) { defaultConfig with inputEnd := .stall }) = .stuck .inputStall := rfl
theorem witness_ldi_data_stalls :
    memRead 0xFE00 (under (placed 0x3000 0xFE00) { defaultConfig with inputEnd := .stall }) = .stuck .inputStall := rfl

/-- LoadIndirectRule: a pointer that is KBSR_ADDR, the data read then completing or failing. -/
theorem witness_ldi_data_polls :
    memRead (0x3000 + sext 0#9) (fed (placed 0x3000 0xFE00) [0x00]) = .ok 0xFE00 (fed (placed 0x3000 0xFE00) [0x00]) ∧
    memRead 0xFE00 (fed (placed 0x3000 0xFE00) [0x00]) =
      .ok (((placed 0x3000 0xFE00).latchKey 0).word 0xFE00) ((placed 0x3000 0xFE00).latchKey 0) := ⟨rfl, rfl⟩
theorem witness_ldi_data_fails :
    memRead (0x3000 + sext 0#9) (placed 0x3000 0xFE00) = .ok 0xFE00 (placed 0x3000 0xFE00) ∧
    memRead 0xFE00 (placed 0x3000 0xFE00) = .ended ((placed 0x3000 0xFE00).raise .keyboardInputError) := ⟨rfl, rfl⟩

/-- LoadBaseRule: away from KBSR_ADDR, and there, with a byte and without. -/
theorem witness_ldr_plain : State.reset.reg 2 + sext 0x3F#6 ≠ State.reset.cfg.kbsrAddr := by decide
theorem witness_ldr_polls : memRead ((State.reset.setReg 1 0xFE00).reg 1 + sext 0#6) (fed (State.reset.setReg 1 0xFE00) [0x41])
    = .ok (((State.reset.setReg 1 0xFE00).latchKey 0x41).word 0xFE00) ((State.reset.setReg 1 0xFE00).latchKey 0x41) := rfl
theorem witness_ldr_fails : memRead ((State.reset.setReg 1 0xFE00).reg 1 + sext 0#6) (State.reset.setReg 1 0xFE00)
    = .ended ((State.reset.setReg 1 0xFE00).raise .keyboardInputError) := rfl

/-- StoreThenLoadReturnsValue: M12's addresses, and two pointer words to 0x4000. -/
theorem witness_st_ld : exec (.st 1 1#9) State.reset = .next (State.reset.memWrite 0x3001 0) ∧
    State.reset.pc + 1 + sext 0#9 = State.reset.pc + sext 1#9 ∧
    State.reset.pc + sext 1#9 ≠ State.reset.cfg.kbsrAddr := ⟨rfl, by decide, by decide⟩
def twoPointers : State := ((State.reset.memWrite 0x3005 0x4000).memWrite 0x3007 0x4000).setReg 1 0xBEEF
theorem witness_sti_ldi : exec (.sti 1 5#9) twoPointers = .next (twoPointers.memWrite 0x4000 0xBEEF) ∧
    twoPointers.pc + sext 5#9 ≠ 0xFE00 ∧ twoPointers.pc + 1 + sext 6#9 ≠ 0xFE00 ∧
    (twoPointers.memWrite 0x4000 0xBEEF).mem.read (twoPointers.pc + 1 + sext 6#9) =
      twoPointers.mem.read (twoPointers.pc + sext 5#9) ∧
    twoPointers.mem.read (twoPointers.pc + sext 5#9) ≠ 0xFE00 := ⟨rfl, by decide, by decide, by decide, by decide⟩

/-- UnknownTrapVector: the vectors beside the six. -/
theorem witness_unknown_vectors : knownVector 0x1F = false ∧ knownVector 0x26 = false ∧ knownVector 0x00 = false := by
  decide

/-- TrapGetcReadsOneByte, TrapInPromptsReadsEchoes: a byte, and none under Fail. -/
theorem witness_trap_input : (fed State.reset [0x80]).inp = [0x80] ∧ State.reset.inp = [] ∧
    State.reset.cfg.inputEnd = .fail := by decide

/-- The same: none under Stall. -/
theorem witness_trap_stalls : (under State.reset { defaultConfig with inputEnd := .stall }).inp = [] ∧
    exec (.trap 0x23#8) (under State.reset { defaultConfig with inputEnd := .stall }) = .fault .inputStall := ⟨rfl, rfl⟩

/-- TrapPutsPrintsString, TrapPutspPrintsPackedString: T7's string, which wraps at the top of memory. -/
def wrapped : State := ((State.reset.memWrite 0xFFFF 0x41).memWrite 0 0x42).setReg 0 0xFFFF
theorem witness_puts_string :
    (∀ (k : Nat) (h : k < [(0x41 : Word), 0x42].length),
      wrapped.mem.read (wrapped.reg 0 + BitVec.ofNat 16 k) = [(0x41 : Word), 0x42][k] ∧ [(0x41 : Word), 0x42][k] ≠ 0) ∧
    wrapped.mem.read (wrapped.reg 0 + BitVec.ofNat 16 2) = 0 ∧
    (∀ k ≤ 2, wrapped.reg 0 + BitVec.ofNat 16 k ≠ wrapped.cfg.kbsrAddr) := by
  refine ⟨fun k h => ?_, by decide, by decide⟩
  obtain rfl | rfl : k = 0 ∨ k = 1 := by simp at h; omega
  · exact ⟨by rfl, by simp⟩
  · exact ⟨by rfl, by simp⟩

/-- ReservedOpcodes: both policies. -/
theorem witness_policies : State.reset.cfg.reservedOp = .fault ∧
    (under State.reset { defaultConfig with reservedOp := .noOp }).cfg.reservedOp = .noOp := by decide

/-- StepRunsTheDecodedInstruction: an ordinary fetch, one that polls, one that stalls, one that fails. -/
theorem witness_fetch : State.reset.status = .running ∧ terminationDue State.reset = false ∧
    State.reset.pc ≠ State.reset.cfg.kbsrAddr ∧ decode (State.reset.mem.read State.reset.pc) = .br 0#3 0#9 := by decide
theorem witness_fetch_polls : terminationDue (fed atKbsr [0x41]) = false ∧ decode 0x8000 = .rti ∧
    memRead (fed atKbsr [0x41]).pc (fed atKbsr [0x41]) = .ok 0x8000 (atKbsr.latchKey 0x41) :=
  ⟨by decide, by decide, rfl⟩
theorem witness_fetch_stalls : terminationDue (under atKbsr { defaultConfig with inputEnd := .stall }) = false ∧
    memRead atKbsr.pc (under atKbsr { defaultConfig with inputEnd := .stall }) = .stuck .inputStall := ⟨rfl, rfl⟩
theorem witness_fetch_fails : memRead atKbsr.pc atKbsr = .ended (atKbsr.raise .keyboardInputError) := rfl

/-- TerminationCheckOfEachMode: at and off the bound in each mode. -/
theorem witness_bounds :
    terminationDue (under (placed 0xFFFF 0) { defaultConfig with pcBound := .stopAtTop }) = true ∧
    terminationDue (under (placed 0xFFFE 0) { defaultConfig with pcBound := .stopAtTop }) = false ∧
    terminationDue (under { State.reset with topCarry := true } { defaultConfig with pcBound := .stopAfterTop }) = true ∧
    terminationDue (under State.reset { defaultConfig with pcBound := .stopAfterTop }) = false := by decide

/-- BoundModesAgreeOffTheTop: a step with a next state, and one without. -/
theorem witness_off_the_top : State.reset.pc ≠ 0xFFFF ∧ State.reset.topCarry = false ∧
    (∃ t, step State.reset = .next t) ∧ step State.reset.halt = .fault .runEnded := ⟨by decide, rfl, ⟨_, rfl⟩, rfl⟩

/-- EndsOfARunHaveTheirCauses, ErrorsArePrecise: a halt, and each error. -/
theorem witness_ends : (∃ t, exec (.trap 0x25#8) State.reset = .next t ∧ t.status = .halted) ∧
    (∃ t, exec (.trap 0x20#8) State.reset = .next t ∧ t.status = .errored .keyboardInputError) ∧
    (∃ t, exec (.trap 0x26#8) State.reset = .next t ∧ t.status = .errored (.illegalTrap 0x26)) ∧
    (∃ t, exec .rti State.reset = .next t ∧ t.status = .errored (.illegalOpcode 0x8)) ∧
    (∃ t, exec .res State.reset = .next t ∧ t.status = .errored (.illegalOpcode 0xD)) :=
  ⟨⟨_, rfl, rfl⟩, ⟨_, rfl, rfl⟩, ⟨_, rfl, rfl⟩, ⟨_, rfl, rfl⟩, ⟨_, rfl, rfl⟩⟩

/-- StepAnswersUnlessInputStalls: Running under Fail, Running under Stall with nothing to read, and a terminal status. -/
theorem witness_stall : (under (placed 0x3000 0xF020) { defaultConfig with inputEnd := .stall }).status = .running ∧
    step (under (placed 0x3000 0xF020) { defaultConfig with inputEnd := .stall }) = .fault .inputStall ∧
    State.reset.finish.status ≠ .running := ⟨rfl, rfl, by decide⟩

/-- The frames: an instruction of each kind that has a next state, with what it does not write. -/
theorem witness_frames : (∃ t, exec (.addReg 0 1 2) State.reset = .next t) ∧ (1 : Reg) ∉ (Instr.addReg 0 1 2).mayWrite ∧
    (∃ t, exec (.trap 0x20#8) (fed State.reset [1]) = .next t) ∧ (1 : Reg) ∉ (Instr.trap 0x20#8).mayWrite ∧
    (∃ t, exec (.jsr 1#11) State.reset = .next t) ∧ (Instr.jsr 1#11).writesCond = false ∧
    (∃ t, exec (.ld 0 1#9) State.reset = .next t) ∧ (Instr.ld 0 1#9).writesPc = false ∧
    (Instr.ld 0 1#9).stores = false ∧ (Instr.ld 0 1#9).readsMemory = true ∧ (Instr.jsr 1#11).readsMemory = false :=
  ⟨⟨_, rfl⟩, by decide, ⟨_, rfl⟩, by decide, ⟨_, rfl⟩, rfl, ⟨_, rfl⟩, rfl, rfl, rfl, rfl⟩

/-- StoresChangeOneWord: each store has a next state, STI's pointer read completing. -/
theorem witness_stores : (∃ t, exec (.st 1 1#9) State.reset = .next t) ∧ (∃ t, exec (.str 1 2 1#6) State.reset = .next t) ∧
    (∃ t, exec (.sti 1 5#9) twoPointers = .next t) ∧
    memRead (pcRelative twoPointers 5#9) twoPointers = .ok 0x4000 twoPointers := ⟨⟨_, rfl⟩, ⟨_, rfl⟩, ⟨_, rfl⟩, rfl⟩

/-- BranchRule, ControlTransfersClearTopCarry: a BR taken and one not taken, with a next state, under two modes. -/
theorem witness_branch : (0b010#3).setWidth 16 &&& State.reset.cond ≠ 0 ∧ (0b101#3).setWidth 16 &&& State.reset.cond = 0 ∧
    (Instr.br 0b010#3 1#9).writesPc = true ∧ (Instr.jmp 7).writesPc = true ∧
    (∃ t, exec (.br 0b010#3 1#9) State.reset = .next t) ∧ (∃ t, exec (.jmp 7) State.reset = .next t) ∧
    State.reset.cfg.pcBound ≠ .stopAfterTop ∧
    (under State.reset { defaultConfig with pcBound := .stopAfterTop }).cfg.pcBound = .stopAfterTop :=
  ⟨by decide, by decide, rfl, rfl, ⟨_, rfl⟩, ⟨_, rfl⟩, by decide, rfl⟩

/-- OnlyBranchReadsCondAndNothingReadsCount: an instruction that writes COND and one that does not. -/
theorem witness_cond_read : (Instr.addReg 0 1 2).readsCond = false ∧ (Instr.st 1 1#9).readsCond = false ∧
    exec (.addReg 0 1 2) (flagged State.reset 4) = exec (.addReg 0 1 2) State.reset ∧
    exec (.st 1 1#9) (flagged State.reset 4) = .next (flagged (State.reset.memWrite 0x3001 0) 4) := ⟨rfl, rfl, rfl, rfl⟩

/-- CountAndParametersNeverChange, OutputGrowsAndInputIsConsumed, EveryStepKeepsInvariant: a step from reset. -/
theorem witness_step : (∃ t, step State.reset = .next t) ∧ State.reset.flushed ≤ State.reset.out.length := ⟨⟨_, rfl⟩, by decide⟩
theorem witness_invariant : State.reset.mem.wf ∧ State.reset.cond = flagZro ∧ State.reset.count = 0 ∧
    State.reset.topCarry = false ∧ State.reset.status = .running ∧ State.reset.cfg.WellFormed = true := by decide

/-- LaunchSatisfiesInvariant, LaunchedStateValues, LoaderPlacesImageWords, RefusedLaunches. -/
theorem witness_launch : defaultConfig.WellFormed = true ∧ loadImage [0x30, 0x00] = .ok (0x3000, []) ∧
    [(0x1234 : Word)].length ≤ 65536 - (0xFFFF : Word).toNat ∧
    65536 - (0xFFFF : Word).toNat < [(0x1234 : Word), 0x5678].length ∧ [(0x30 : Byte)].length < 2 ∧
    [(0x30 : Byte), 0, 0x12].length % 2 = 1 := by decide

/-- LaunchedStateValues: a second path is ignored (R211), even one that cannot be opened. -/
theorem witness_second_path :
    launch defaultConfig none [.stream [0x30, 0x00] false, .cannotOpen "b" "missing"] [] = .ok State.reset := rfl

/-- ExitStatusOfEachEnd: a refused launch and an accepted one. -/
theorem witness_launch_exit : launch defaultConfig none [] [] = .error .notEnoughArguments ∧
    launch defaultConfig none [.stream [0x30, 0x00] false] [] = .ok State.reset := ⟨rfl, rfl⟩

end Sys2Proof.Tests
end

