-- ==== Sys2Proof/Proofs/Extension.lean ====
section
/-! LAWS. Sign and zero extension of a field of any width: the value of `sext` (R73) and the bits of `sext` and `zext`
(R12), and the obligation they settle. -/

namespace Sys2Proof.Machine

variable {k : Nat}

/-- R73's formula: a negative field gains the ones above its width, `2^16 - 2^k` of them in value. -/
theorem toNat_sext (f : BitVec k) (hk : k ≤ 16) :
    (sext f).toNat = if f.toNat < 2 ^ (k - 1) then f.toNat else f.toNat + 65536 - 2 ^ k := by
  have hpow : 2 ^ k ≤ 65536 := Nat.pow_le_pow_right (n := 2) (by decide) hk
  rw [sext, BitVec.toNat_signExtend, BitVec.toNat_setWidth_of_le hk, BitVec.msb_eq_decide]
  by_cases hneg : 2 ^ (k - 1) ≤ f.toNat
  · simp only [hneg, decide_true, if_true, if_neg (Nat.not_lt.mpr hneg)]
    omega
  · simp [hneg, Nat.not_le.mp hneg]

/-- R12: every bit of the sign extension from the width on is the field's top bit. -/
theorem getLsbD_sext (f : BitVec k) {j : Nat} (hj : j < 16) :
    (sext f).getLsbD j = if j < k then f.getLsbD j else f.getLsbD (k - 1) := by
  rw [sext, BitVec.getLsbD_signExtend, BitVec.msb_eq_getLsbD_last, decide_eq_true hj, Bool.true_and]

/-- R12: every bit of the zero extension from the width on is 0. -/
theorem getLsbD_zext (f : BitVec k) {j : Nat} (hj : j < 16) :
    (zext f).getLsbD j = if j < k then f.getLsbD j else false := by
  rw [zext, BitVec.getLsbD_setWidth]
  by_cases hjk : j < k
  · simp [hj, hjk]
  · simp [hjk, BitVec.getLsbD_of_ge f j (Nat.not_lt.mp hjk)]

/-- Settles O6: the value of the sign extension by the field's top bit, and each bit of both extensions by whether it
lies below the width. -/
theorem signExtensionOfEveryWidth : Obligations.SignExtensionOfEveryWidth := by
  intro k f _ hk
  exact ⟨toNat_sext f hk, fun _ hj => getLsbD_sext f hj, fun _ hj => getLsbD_zext f hj⟩

end Sys2Proof.Machine
end

