-- ==== Sys2Proof/Proofs/Slots.lean ====
section
/-! LAWS. The register slots (R21, R23): what `getSlot` and `setSlot` answer at each number, the registers a slot depends
on, and the obligation they settle. -/

namespace Sys2Proof.Machine

variable (s : State)

@[simp] theorem getSlot_reg (r : Reg) : s.getSlot r.val = .ok (s.reg r) := dif_pos r.isLt
@[simp] theorem getSlot_pc : s.getSlot 8 = .ok s.pc := rfl
@[simp] theorem getSlot_cond : s.getSlot 9 = .ok s.cond := rfl
@[simp] theorem getSlot_count : s.getSlot 10 = .ok s.count := rfl

@[simp] theorem setSlot_reg (r : Reg) (v : Word) : s.setSlot r.val v = .ok (s.setReg r v) := dif_pos r.isLt
@[simp] theorem setSlot_pc (v : Word) : s.setSlot 8 v = .ok { s with pc := v } := rfl
@[simp] theorem setSlot_cond (v : Word) : s.setSlot 9 v = .ok { s with cond := v } := rfl
@[simp] theorem setSlot_count (v : Word) : s.setSlot 10 v = .ok { s with count := v } := rfl

/-- The numbers of the slots (R21): the general registers, PC, COND and COUNT, and no slot from 11 on. -/
theorem slot_cases (idx : Nat) :
    (∃ r : Reg, idx = r.val) ∨ idx = 8 ∨ idx = 9 ∨ idx = 10 ∨ 11 ≤ idx := by
  by_cases h : idx < 8
  · exact .inl ⟨⟨idx, h⟩, rfl⟩
  · omega

theorem getSlot_outOfBounds {idx : Nat} (h : 11 ≤ idx) : s.getSlot idx = .error (.outOfBounds idx) := by
  rw [State.getSlot, dif_neg (by omega), if_neg (by omega), if_neg (by omega), if_neg (by omega)]

theorem setSlot_outOfBounds {idx : Nat} (h : 11 ≤ idx) (v : Word) :
    s.setSlot idx v = .error (.outOfBounds idx) := by
  rw [State.setSlot, dif_neg (by omega), if_neg (by omega), if_neg (by omega), if_neg (by omega)]

variable {s}

/-- A slot is the register of its number, so an update that keeps that register keeps the slot. -/
theorem getSlot_congr {t : State} {idx : Nat} (hreg : ∀ r : Reg, idx = r.val → t.reg r = s.reg r)
    (hpc : idx = 8 → t.pc = s.pc) (hcond : idx = 9 → t.cond = s.cond) (hcount : idx = 10 → t.count = s.count) :
    t.getSlot idx = s.getSlot idx := by
  obtain ⟨r, rfl⟩ | rfl | rfl | rfl | h := slot_cases idx
  · simp [hreg r rfl]
  · simp [hpc rfl]
  · simp [hcond rfl]
  · simp [hcount rfl]
  · rw [getSlot_outOfBounds t h, getSlot_outOfBounds s h]

variable {t : State} {idx : Nat} {v : Word}

/-- Storing to a slot succeeds below 11. -/
theorem exists_setSlot_of_lt (s : State) (v : Word) (h : idx < 11) : ∃ t, s.setSlot idx v = .ok t := by
  obtain ⟨r, rfl⟩ | rfl | rfl | rfl | hge := slot_cases idx
  · exact ⟨_, setSlot_reg s r v⟩
  · exact ⟨_, setSlot_pc s v⟩
  · exact ⟨_, setSlot_cond s v⟩
  · exact ⟨_, setSlot_count s v⟩
  · omega

/-- Inversion of a store: it went to one of the eleven slots and wrote the register of that slot. -/
theorem setSlot_eq_ok (h : s.setSlot idx v = .ok t) :
    (∃ r : Reg, idx = r.val ∧ t = s.setReg r v) ∨ (idx = 8 ∧ t = { s with pc := v }) ∨
      (idx = 9 ∧ t = { s with cond := v }) ∨ (idx = 10 ∧ t = { s with count := v }) := by
  obtain ⟨r, rfl⟩ | rfl | rfl | rfl | hge := slot_cases idx
  · rw [setSlot_reg, Except.ok.injEq] at h
    exact .inl ⟨r, rfl, h.symm⟩
  · rw [setSlot_pc, Except.ok.injEq] at h
    exact .inr (.inl ⟨rfl, h.symm⟩)
  · rw [setSlot_cond, Except.ok.injEq] at h
    exact .inr (.inr (.inl ⟨rfl, h.symm⟩))
  · rw [setSlot_count, Except.ok.injEq] at h
    exact .inr (.inr (.inr ⟨rfl, h.symm⟩))
  · simp [setSlot_outOfBounds s hge] at h

/-- A slot returns what was stored to it. -/
theorem getSlot_setSlot_same (h : s.setSlot idx v = .ok t) : t.getSlot idx = .ok v := by
  obtain ⟨r, rfl, rfl⟩ | ⟨rfl, rfl⟩ | ⟨rfl, rfl⟩ | ⟨rfl, rfl⟩ := setSlot_eq_ok h
  · simp
  · rfl
  · rfl
  · rfl

/-- A store to one slot leaves every other slot. -/
theorem getSlot_setSlot_ne (h : s.setSlot idx v = .ok t) {j : Nat} (hj : j ≠ idx) : t.getSlot j = s.getSlot j := by
  obtain ⟨r, rfl, rfl⟩ | ⟨rfl, rfl⟩ | ⟨rfl, rfl⟩ | ⟨rfl, rfl⟩ := setSlot_eq_ok h
  · refine getSlot_congr (fun q hq => ?_) (fun _ => rfl) (fun _ => rfl) (fun _ => rfl)
    have hqr : q ≠ r := fun e => hj (e ▸ hq)
    rw [reg_setReg, if_neg hqr]
  · exact getSlot_congr (fun _ _ => rfl) (fun e => absurd e hj) (fun _ => rfl) (fun _ => rfl)
  · exact getSlot_congr (fun _ _ => rfl) (fun _ => rfl) (fun e => absurd e hj) (fun _ => rfl)
  · exact getSlot_congr (fun _ _ => rfl) (fun _ => rfl) (fun _ => rfl) (fun e => absurd e hj)

/-- Settles O8: the accessors by the number of the slot, and a store by the one register it writes. -/
theorem registerAccessors : Obligations.RegisterAccessors := by
  refine ⟨fun s _ v h => ⟨getSlot_outOfBounds s h, setSlot_outOfBounds s h v⟩, fun s _ v h => ?_⟩
  obtain ⟨t, ht⟩ := exists_setSlot_of_lt s v h
  exact ⟨t, ht, getSlot_setSlot_same ht, fun _ hj => getSlot_setSlot_ne ht hj⟩

end Sys2Proof.Machine
end

