-- ==== Sys2Proof/Proofs/Flags.lean ====
section
/-! LAWS. The condition flags (R28): the flag of each value, `update_flags` from a slot's answer, and the obligation they
settle. -/

namespace Sys2Proof.Machine

@[simp] theorem flagOf_zero : flagOf 0 = flagZro := rfl

/-- Bit 15 is set exactly when the value is at least 0x8000. -/
theorem getLsbD_15_eq_decide (v : Word) : v.getLsbD 15 = decide (32768 ≤ v.toNat) :=
  (BitVec.msb_eq_getLsbD_last v).symm.trans (BitVec.msb_eq_decide v)

theorem flagOf_of_neg {v : Word} (h : 32768 ≤ v.toNat) : flagOf v = flagNeg := by
  have hne : v ≠ 0 := by rintro rfl; simp at h
  rw [flagOf, if_neg hne, getLsbD_15_eq_decide, if_pos (decide_eq_true h)]

theorem flagOf_of_pos {v : Word} (hv : v ≠ 0) (h : v.toNat < 32768) : flagOf v = flagPos := by
  rw [flagOf, if_neg hv, getLsbD_15_eq_decide, if_neg (by simpa using h)]

theorem updateFlags_of_getSlot_ok {s : State} {idx : Nat} {v : Word} (h : s.getSlot idx = .ok v) :
    s.updateFlags idx = .ok (s.setcc v) := by
  rw [State.updateFlags, h]

theorem updateFlags_of_getSlot_error {s : State} {idx : Nat} {e : Error} (h : s.getSlot idx = .error e) :
    s.updateFlags idx = .error e := by
  rw [State.updateFlags, h]

/-- Settles O7: the flag of a value in each of R28's three ranges, and `update_flags` from what `get_register` answers. -/
theorem flagUpdateRule : Obligations.FlagUpdateRule := by
  refine ⟨fun s v => ⟨fun hzero => ?_, fun hneg => ?_, fun hne hpos => ?_⟩, fun _ _ _ => updateFlags_of_getSlot_ok,
    fun s _ hidx => updateFlags_of_getSlot_error (getSlot_outOfBounds s hidx)⟩
  · rw [State.setcc, hzero, flagOf_zero]
  · rw [State.setcc, flagOf_of_neg hneg]
  · have hv : v ≠ 0 := by rintro rfl; exact hne rfl
    rw [State.setcc, flagOf_of_pos hv hpos]

end Sys2Proof.Machine
end

