-- ==== Sys2Proof/Proofs/MemoryAccess.lean ====
section
/-! LAWS. The memory operations as the spec names them (R43, R44): the read of KBSR_ADDR beside `memRead_plain` for every
other address, and the obligations they settle. -/

namespace Sys2Proof.Machine

/-- A read of KBSR_ADDR is a poll and then the stored word (R44). -/
theorem memRead_kbsr {a : Word} {s : State} (h : a = s.cfg.kbsrAddr) :
    memRead a s = (keyboardPoll s).bind fun _ t => .ok (t.word a) t := if_pos h

/-- Settles O10: the word reads back by `read_write`, and the next read of it by whether its address is KBSR_ADDR, which
the store leaves as it is. -/
theorem storeWritesOneWord : Obligations.StoreWritesOneWord := by
  intro s a b v
  refine ⟨read_write s.mem a b v, rfl, fun hplain => ?_, fun hkbsr => memRead_kbsr hkbsr⟩
  have hword : (s.memWrite a v).word a = v := by rw [word_memWrite, if_pos rfl]
  rw [memRead_plain (s := s.memWrite a v) hplain, hword]

/-- Settles O11: the two reads by address, and at KBSR_ADDR what follows each answer of the poll. -/
theorem readPollsOnlyAtKbsr : Obligations.ReadPollsOnlyAtKbsr := by
  refine fun s a => ⟨fun hplain => memRead_plain hplain, fun hkbsr => ?_⟩
  rw [memRead_kbsr hkbsr]
  refine ⟨fun t hpoll => ?_, fun t hpoll => ?_, fun r hpoll => ?_⟩
  · rw [hpoll, ok_bind, State.word]
  · rw [hpoll, ended_bind]
  · rw [hpoll, stuck_bind]

end Sys2Proof.Machine
end

