-- ==== Sys2Proof/Proofs/Loader.lean ====
section
/-! LAWS. The loader (R51, R52): the words of an image's bytes, what its stores leave at and outside the stored addresses,
and the obligation they settle. -/

namespace Sys2Proof.Machine

/-- The bytes of a list of words are read back as those words (R51). -/
theorem imageWords_imageBytes (ws : List Word) : imageWords (imageBytes ws) = some ws := by
  induction ws with
  | nil => rfl
  | cons w ws ih =>
    change imageWords (w.extractLsb' 8 8 :: w.extractLsb' 0 8 :: imageBytes ws) = some (w :: ws)
    rw [imageWords, ih, append_bytes]

/-- An image whose words fit is accepted with its origin and the stores of its words (R52). -/
theorem loadImage_imageBytes {origin : Word} {ws : List Word} (hfit : ws.length ≤ 65536 - origin.toNat) :
    loadImage (imageBytes (origin :: ws)) = .ok (origin, storeWords [] origin ws) := by
  rw [loadImage, imageWords_imageBytes]
  exact if_pos hfit

/-- The address of word `k + 1` of an image is that of word `k` from the next address on. -/
theorem add_ofNat_succ (a : Word) (k : Nat) : a + BitVec.ofNat 16 (k + 1) = a + 1 + BitVec.ofNat 16 k := by
  rw [Nat.add_comm k 1, BitVec.ofNat_add, ← BitVec.add_assoc, BitVec.ofNat_eq_ofNat]

/-- Steps of fewer than 65536 from an address do not come back to it. -/
theorem add_ofNat_succ_ne {a : Word} {k : Nat} (hk : k + 1 < 65536) : a ≠ a + BitVec.ofNat 16 (k + 1) := by
  bv_omega

/-- Every word of the all-zero memory is 0 (R52). -/
theorem read_nil (a : Word) : Memory.read [] a = 0 := by
  have hbyte : ∀ k, Memory.readByte [] k = 0 := fun _ => rfl
  rw [Memory.read, hbyte, hbyte]
  decide

/-- The loader's stores leave every address they do not name. -/
theorem read_storeWords_of_ne {ws : List Word} {m : Memory} {a b : Word}
    (hb : ∀ k < ws.length, b ≠ a + BitVec.ofNat 16 k) : (storeWords m a ws).read b = m.read b := by
  induction ws generalizing m a with
  | nil => rfl
  | cons w ws ih =>
    have hfirst : b ≠ a := by simpa using hb 0 (Nat.succ_pos _)
    have hrest : ∀ k < ws.length, b ≠ a + 1 + BitVec.ofNat 16 k := fun k hk =>
      add_ofNat_succ a k ▸ hb (k + 1) (Nat.succ_lt_succ hk)
    rw [storeWords, ih hrest, read_write, if_neg hfirst]

/-- The loader's stores put word `k` at `k` addresses above the first, no address being stored to twice. -/
theorem read_storeWords {ws : List Word} {m : Memory} {a : Word} (hlen : ws.length ≤ 65536) {k : Nat}
    (hk : k < ws.length) : (storeWords m a ws).read (a + BitVec.ofNat 16 k) = ws[k] := by
  induction ws generalizing m a k with
  | nil => exact absurd hk (Nat.not_lt_zero k)
  | cons w ws ih =>
    rw [List.length_cons] at hlen hk
    rw [storeWords]
    cases k with
    | zero =>
      have hkept : ∀ j < ws.length, a ≠ a + 1 + BitVec.ofNat 16 j := fun j hj =>
        add_ofNat_succ a j ▸ add_ofNat_succ_ne (by omega)
      rw [BitVec.add_zero, read_storeWords_of_ne hkept, read_write, if_pos rfl, List.getElem_cons_zero]
    | succ k =>
      rw [add_ofNat_succ, List.getElem_cons_succ]
      exact ih (by omega) (by omega)

/-- Settles O58: the image is accepted, and the words it stores and leaves in the all-zero memory are read by
`read_storeWords` and `read_storeWords_of_ne`. -/
theorem loaderPlacesImageWords : Obligations.LoaderPlacesImageWords := by
  intro origin ws hfit
  have hlen : ws.length ≤ 65536 := by omega
  exact ⟨storeWords [] origin ws, loadImage_imageBytes hfit, fun _ hk => read_storeWords hlen hk,
    fun a ha => (read_storeWords_of_ne ha).trans (read_nil a)⟩

end Sys2Proof.Machine
end

