-- ==== Sys2Proof/Proofs/Decode.lean ====
section
/-! LAWS. The decoder by opcode (R70, R75): the opcode of a word from its number, and the instruction of a word with an
opcode of the operate group. -/

namespace Sys2Proof

theorem Opcode.ofNibble_nibble (op : Opcode) : Opcode.ofNibble op.nibble = op := by cases op <;> rfl

variable {w : Word}

/-- A word that carries an opcode's number has that opcode (R75). -/
theorem opcodeOf_of_nibble {op : Opcode} (h : field w 12 4 = op.nibble) : opcodeOf w = op := by
  rw [opcodeOf, h, Opcode.ofNibble_nibble]

/-- A clear bit is not a set one: the other side of the decoder's tests of bit 5 and bit 11. -/
theorem field_ne_one_of_eq_zero {lo : Nat} (h : field w lo 1 = 0#1) : field w lo 1 ≠ 1#1 := by
  rw [h]
  decide

theorem decode_of_add (h : opcodeOf w = .add) :
    decode w = if field w 5 1 = 1#1 then .addImm (regField w 9) (regField w 6) (field w 0 5)
      else .addReg (regField w 9) (regField w 6) (regField w 0) := by
  simp only [decode, h]

theorem decode_of_and (h : opcodeOf w = .and) :
    decode w = if field w 5 1 = 1#1 then .andImm (regField w 9) (regField w 6) (field w 0 5)
      else .andReg (regField w 9) (regField w 6) (regField w 0) := by
  simp only [decode, h]

theorem decode_of_not (h : opcodeOf w = .not) : decode w = .not (regField w 9) (regField w 6) := by
  simp only [decode, h]

end Sys2Proof
end

