-- ==== Sys2Proof/Proofs/Operate.lean ====
section
/-! LAWS. The operate instructions (R110 to R114): each one's handler step as a result written by `writeResult`, which
says once what every one of them changes, and the obligations they settle. -/

namespace Sys2Proof.Machine

section Handlers

variable (dr sr1 sr2 : Reg) (imm5 : BitVec 5) (s : State)

@[simp] theorem exec_addReg : exec (.addReg dr sr1 sr2) s = .next (s.writeResult dr (s.reg sr1 + s.reg sr2)) := rfl
@[simp] theorem exec_addImm : exec (.addImm dr sr1 imm5) s = .next (s.writeResult dr (s.reg sr1 + sext imm5)) := rfl
@[simp] theorem exec_andReg : exec (.andReg dr sr1 sr2) s = .next (s.writeResult dr (s.reg sr1 &&& s.reg sr2)) := rfl
@[simp] theorem exec_andImm : exec (.andImm dr sr1 imm5) s = .next (s.writeResult dr (s.reg sr1 &&& sext imm5)) := rfl
@[simp] theorem exec_not : exec (.not dr sr1) s = .next (s.writeResult dr (~~~ s.reg sr1)) := rfl

/-- Writing a result changes DR and COND and nothing else. -/
theorem writeResult_eq (v : Word) :
    s.writeResult dr v = { s with regs := s.regs.set dr.val v, cond := flagOf v } := rfl

end Handlers

/-- Settles O13: the decoder's ADD arm with bit 5 clear, and the sum written as a result. -/
theorem addRegisterForm : Obligations.AddRegisterForm := by
  refine ⟨fun w hop hbit => ?_, fun dr sr1 sr2 s => ?_⟩
  · exact (decode_of_add (opcodeOf_of_nibble hop)).trans (if_neg (field_ne_one_of_eq_zero hbit))
  · rw [exec_addReg, writeResult_eq]

/-- Settles O14: the decoder's ADD arm with bit 5 set, and the sum with the extended immediate written as a result. -/
theorem addImmediateForm : Obligations.AddImmediateForm := by
  refine ⟨fun w hop hbit => ?_, fun dr sr1 imm5 s => ?_⟩
  · exact (decode_of_add (opcodeOf_of_nibble hop)).trans (if_pos hbit)
  · rw [exec_addImm, writeResult_eq]

/-- Settles O15: the decoder's AND arm with bit 5 clear, and the conjunction written as a result. -/
theorem andRegisterForm : Obligations.AndRegisterForm := by
  refine ⟨fun w hop hbit => ?_, fun dr sr1 sr2 s => ?_⟩
  · exact (decode_of_and (opcodeOf_of_nibble hop)).trans (if_neg (field_ne_one_of_eq_zero hbit))
  · rw [exec_andReg, writeResult_eq]

/-- Settles O16: the decoder's AND arm with bit 5 set, and the conjunction with the extended immediate written as a
result. -/
theorem andImmediateForm : Obligations.AndImmediateForm := by
  refine ⟨fun w hop hbit => ?_, fun dr sr1 imm5 s => ?_⟩
  · exact (decode_of_and (opcodeOf_of_nibble hop)).trans (if_pos hbit)
  · rw [exec_andImm, writeResult_eq]

/-- Settles O17: the decoder's NOT arm, which tests no further bit, and the complement written as a result. -/
theorem notComplements : Obligations.NotComplements := by
  refine ⟨fun w hop => ?_, fun dr sr s => ?_⟩
  · exact decode_of_not (opcodeOf_of_nibble hop)
  · rw [exec_not, writeResult_eq]

end Sys2Proof.Machine
end

