-- ==== Sys2Proof/Proofs/Control.lean ====
section
/-! LAWS. Control transfer (R120 to R123): the instruction of a word with an opcode of the group, each handler step as a
write of PC by `setPc`, after the link into R7 for the calls, the flag each bit of BR's mask tests, and the obligations
they settle. -/

namespace Sys2Proof

variable {w : Word}

theorem decode_of_br (h : opcodeOf w = .br) : decode w = .br (field w 9 3) (field w 0 9) := by
  simp only [decode, h]

theorem decode_of_jmp (h : opcodeOf w = .jmp) : decode w = .jmp (regField w 6) := by
  simp only [decode, h]

/-- Bit 11 tells JSR from JSRR, which share an opcode (C6). -/
theorem decode_of_jsr (h : opcodeOf w = .jsr) :
    decode w = if field w 11 1 = 1#1 then .jsr (field w 0 11) else .jsrr (regField w 6) := by
  simp only [decode, h]

namespace Machine

section Handlers

variable (mask : BitVec 3) (offset9 : BitVec 9) (offset11 : BitVec 11) (baseR : Reg) (s : State)

@[simp] theorem exec_br : exec (.br mask offset9) s =
    .next (if branchTaken mask s then s.setPc (pcRelative s offset9) else s) := rfl
@[simp] theorem exec_jmp : exec (.jmp baseR) s = .next (s.setPc (s.reg baseR)) := rfl
@[simp] theorem exec_jsr : exec (.jsr offset11) s = .next ((s.setReg 7 s.pc).setPc (pcRelative s offset11)) := rfl

/-- R123: the target is read after the link, so it is the link itself when BaseR is R7. -/
@[simp] theorem exec_jsrr : exec (.jsrr baseR) s =
    .next ((s.setReg 7 s.pc).setPc (if baseR = 7 then s.pc else s.reg baseR)) := by
  rw [← reg_setReg s 7 baseR s.pc]
  rfl

/-- A handler's write of PC changes PC and topCarry and nothing else (R95). -/
theorem exists_setPc_eq (target : Word) : ∃ carry, s.setPc target = { s with pc := target, topCarry := carry } :=
  ⟨_, rfl⟩

/-- The calls' link and write of PC change R7, PC and topCarry and nothing else (R95, R122, R123). -/
theorem exists_setPc_link_eq (target : Word) : ∃ carry, (s.setReg 7 s.pc).setPc target =
    { s with regs := s.regs.set 7 s.pc, pc := target, topCarry := carry } :=
  exists_setPc_eq (s.setReg 7 s.pc) target

variable {mask s}

theorem branchTaken_iff : branchTaken mask s = true ↔ zext mask &&& s.cond ≠ 0 := decide_eq_true_iff

theorem exec_br_taken (h : zext mask &&& s.cond ≠ 0) :
    exec (.br mask offset9) s = .next (s.setPc (pcRelative s offset9)) := by
  rw [exec_br, if_pos (branchTaken_iff.mpr h)]

theorem exec_br_not_taken (h : zext mask &&& s.cond = 0) : exec (.br mask offset9) s = .next s := by
  rw [exec_br, if_neg fun htaken => branchTaken_iff.mp htaken h]

end Handlers

/-- A flag is one bit of COND (R27), so BR's test against it reads the mask's bit of the same number. -/
theorem zext_and_twoPow_ne_zero_iff (mask : BitVec 3) {j : Nat} (hj : j < 3) :
    zext mask &&& BitVec.twoPow 16 j ≠ 0 ↔ mask.getLsbD j = true := by
  have hflag : BitVec.twoPow 16 j ≠ 0 := by interval_cases j <;> decide
  rw [BitVec.and_twoPow, getLsbD_zext mask (by omega), if_pos hj]
  cases mask.getLsbD j
  · simp
  · simpa using hflag

theorem flagNeg_eq_twoPow : flagNeg = BitVec.twoPow 16 2 := by decide
theorem flagZro_eq_twoPow : flagZro = BitVec.twoPow 16 1 := by decide
theorem flagPos_eq_twoPow : flagPos = BitVec.twoPow 16 0 := by decide

/-- Settles O18: the decoder's BR arm, the handler by BR's test, and the test of each flag as its bit of the mask. -/
theorem branchRule : Obligations.BranchRule := by
  refine ⟨fun w hop => decode_of_br (opcodeOf_of_nibble hop), fun mask offset9 s => ⟨fun htaken => ?_, fun hnot => ?_⟩,
    fun mask => ⟨?_, ?_, ?_⟩⟩
  · obtain ⟨carry, hset⟩ := exists_setPc_eq s (pcRelative s offset9)
    exact ⟨carry, (exec_br_taken offset9 htaken).trans (congrArg _ hset)⟩
  · exact exec_br_not_taken offset9 hnot
  · rw [flagNeg_eq_twoPow]
    exact zext_and_twoPow_ne_zero_iff mask (by decide)
  · rw [flagZro_eq_twoPow]
    exact zext_and_twoPow_ne_zero_iff mask (by decide)
  · rw [flagPos_eq_twoPow]
    exact zext_and_twoPow_ne_zero_iff mask (by decide)

/-- Settles O19: the decoder's JMP arm, and the base register written to PC whatever its value. -/
theorem jumpRule : Obligations.JumpRule := by
  refine ⟨fun w hop => decode_of_jmp (opcodeOf_of_nibble hop), fun baseR s => ?_⟩
  obtain ⟨carry, hset⟩ := exists_setPc_eq s (s.reg baseR)
  exact ⟨carry, (exec_jmp baseR s).trans (congrArg _ hset)⟩

/-- Settles O20: the decoder's JSR arm with bit 11 set, and the PC-relative target written to PC after the link. -/
theorem jsrRule : Obligations.JsrRule := by
  refine ⟨fun w hop hbit => ?_, fun offset11 s => ?_⟩
  · exact (decode_of_jsr (opcodeOf_of_nibble hop)).trans (if_pos hbit)
  · obtain ⟨carry, hset⟩ := exists_setPc_link_eq s (pcRelative s offset11)
    exact ⟨carry, (exec_jsr offset11 s).trans (congrArg _ hset)⟩

/-- Settles O21: the decoder's JSR arm with bit 11 clear, and BaseR as the link leaves it written to PC. -/
theorem jsrrRule : Obligations.JsrrRule := by
  refine ⟨fun w hop hbit => ?_, fun baseR s => ?_⟩
  · exact (decode_of_jsr (opcodeOf_of_nibble hop)).trans (if_neg (field_ne_one_of_eq_zero hbit))
  · obtain ⟨carry, hset⟩ := exists_setPc_link_eq s (if baseR = 7 then s.pc else s.reg baseR)
    exact ⟨carry, (exec_jsrr baseR s).trans (congrArg _ hset)⟩

end Machine

end Sys2Proof
end

