-- ==== Sys2Proof/Proofs/LoadStore.lean ====
section
/-! LAWS. Loads and stores (R130 to R136): the instruction of a word with an opcode of the group, the loads as reads
whose word is written to DR by `loadInto`, the stores as plain writes, and the obligations they settle. -/

namespace Sys2Proof

variable {w : Word}

theorem decode_of_ld (h : opcodeOf w = .ld) : decode w = .ld (regField w 9) (field w 0 9) := by
  simp only [decode, h]

theorem decode_of_ldi (h : opcodeOf w = .ldi) : decode w = .ldi (regField w 9) (field w 0 9) := by
  simp only [decode, h]

theorem decode_of_ldr (h : opcodeOf w = .ldr) : decode w = .ldr (regField w 9) (regField w 6) (field w 0 6) := by
  simp only [decode, h]

theorem decode_of_lea (h : opcodeOf w = .lea) : decode w = .lea (regField w 9) (field w 0 9) := by
  simp only [decode, h]

theorem decode_of_st (h : opcodeOf w = .st) : decode w = .st (regField w 9) (field w 0 9) := by
  simp only [decode, h]

theorem decode_of_sti (h : opcodeOf w = .sti) : decode w = .sti (regField w 9) (field w 0 9) := by
  simp only [decode, h]

theorem decode_of_str (h : opcodeOf w = .str) : decode w = .str (regField w 9) (regField w 6) (field w 0 6) := by
  simp only [decode, h]

namespace Machine

/-- How LD, LDI and LDR end (R130 to R132): the word read at an address is written to DR as a result. -/
def loadInto (dr : Reg) (a : Word) (s : State) : Outcome State Fault Refusal :=
  (memRead a s).andThen fun v t => .next (t.writeResult dr v)

section LoadInto

variable {dr : Reg} {a v : Word} {s t : State} {r : Fault}

theorem loadInto_of_ok (h : memRead a s = .ok v t) :
    loadInto dr a s = .next { t with regs := t.regs.set dr.val v, cond := flagOf v } := by
  rw [loadInto, h, ok_andThen, writeResult_eq]

/-- When the read fails nothing of the load happens: DR and COND are as the read left them (R182). -/
theorem loadInto_of_ended (h : memRead a s = .ended t) : loadInto dr a s = .next t := by
  rw [loadInto, h, ended_andThen]

theorem loadInto_of_stuck (h : memRead a s = .stuck r) : loadInto dr a s = .fault r := by
  rw [loadInto, h, stuck_andThen]

/-- A load away from KBSR_ADDR always completes, with the stored word (R44). -/
theorem loadInto_plain (h : a ≠ s.cfg.kbsrAddr) : loadInto dr a s =
    .next { s with regs := s.regs.set dr.val (s.mem.read a), cond := flagOf (s.mem.read a) } :=
  loadInto_of_ok (memRead_plain h)

end LoadInto

section Handlers

variable (dr sr baseR : Reg) (offset9 : BitVec 9) (offset6 : BitVec 6) (s : State)

@[simp] theorem exec_ld : exec (.ld dr offset9) s = loadInto dr (pcRelative s offset9) s := rfl
@[simp] theorem exec_ldr : exec (.ldr dr baseR offset6) s = loadInto dr (basePlusOffset s baseR offset6) s := rfl
@[simp] theorem exec_lea : exec (.lea dr offset9) s = .next (s.writeResult dr (pcRelative s offset9)) := rfl
@[simp] theorem exec_st : exec (.st sr offset9) s = .next (s.memWrite (pcRelative s offset9) (s.reg sr)) := rfl
@[simp] theorem exec_str : exec (.str sr baseR offset6) s =
    .next (s.memWrite (basePlusOffset s baseR offset6) (s.reg sr)) := rfl

/-- LDI is a pointer read and then a load from the address read (R131). -/
@[simp] theorem exec_ldi : exec (.ldi dr offset9) s =
    (memRead (pcRelative s offset9) s).andThen fun p t => loadInto dr p t := by
  change ((memRead _ s).bind memRead).andThen _ = _
  cases memRead (pcRelative s offset9) s with
  | ok p t => rfl
  | ended t => rfl
  | stuck r => rfl

/-- STI is a pointer read and then a store of SR, whose value the read does not change (R135). -/
@[simp] theorem exec_sti : exec (.sti sr offset9) s =
    (memRead (pcRelative s offset9) s).andThen fun p t => .next (t.memWrite p (s.reg sr)) := by
  change (memRead _ s).andThen _ = _
  cases hread : memRead (pcRelative s offset9) s with
  | ok p t => rw [ok_andThen, ok_andThen, reg_congr (memRead_ok hread).1.regs]
  | ended t => rfl
  | stuck r => rfl

end Handlers

section PointerRead

variable {dr sr : Reg} {offset9 : BitVec 9} {p : Word} {s t : State}

theorem exec_ldi_of_ok (h : memRead (pcRelative s offset9) s = .ok p t) :
    exec (.ldi dr offset9) s = loadInto dr p t := by
  rw [exec_ldi, h, ok_andThen]

theorem exec_sti_of_ok (h : memRead (pcRelative s offset9) s = .ok p t) :
    exec (.sti sr offset9) s = .next { t with mem := t.mem.write p (s.reg sr) } := by
  rw [exec_sti, h, ok_andThen, State.memWrite]

end PointerRead

/-- Settles O23: the decoder's LD arm, and the load from the PC-relative address by what its read answers. -/
theorem loadRule : Obligations.LoadRule := by
  refine ⟨fun w hop => decode_of_ld (opcodeOf_of_nibble hop), fun dr offset9 s =>
    ⟨fun hplain => ?_, fun v t hread => ?_, fun t hread => ?_, fun r hread => ?_⟩⟩
  · exact (exec_ld dr offset9 s).trans (loadInto_plain hplain)
  · exact (exec_ld dr offset9 s).trans (loadInto_of_ok hread)
  · exact (exec_ld dr offset9 s).trans (loadInto_of_ended hread)
  · exact (exec_ld dr offset9 s).trans (loadInto_of_stuck hread)

/-- Settles O24: the decoder's LDI arm, the pointer read, and, where it completes, the load from the pointer by what the
data read answers. -/
theorem loadIndirectRule : Obligations.LoadIndirectRule := by
  refine ⟨fun w hop => decode_of_ldi (opcodeOf_of_nibble hop), fun dr offset9 s =>
    ⟨fun hplain hdata => ?_, fun p t v u hptr hdata => ?_, fun t hptr => ?_, fun p t u hptr hdata => ?_,
      fun r hptr => ?_, fun p t r hptr hdata => ?_⟩⟩
  · exact (exec_ldi_of_ok (memRead_plain hplain)).trans (loadInto_plain hdata)
  · exact (exec_ldi_of_ok hptr).trans (loadInto_of_ok hdata)
  · rw [exec_ldi, pcRelative, hptr, ended_andThen]
  · exact (exec_ldi_of_ok hptr).trans (loadInto_of_ended hdata)
  · rw [exec_ldi, pcRelative, hptr, stuck_andThen]
  · exact (exec_ldi_of_ok hptr).trans (loadInto_of_stuck hdata)

/-- Settles O25: the decoder's LDR arm, and the load from the base plus the offset by what its read answers; the address
is taken from the state before the load, so also when DR is BaseR. -/
theorem loadBaseRule : Obligations.LoadBaseRule := by
  refine ⟨fun w hop => decode_of_ldr (opcodeOf_of_nibble hop), fun dr baseR offset6 s =>
    ⟨fun hplain => ?_, fun v t hread => ?_, fun t hread => ?_, fun r hread => ?_⟩⟩
  · exact (exec_ldr dr baseR offset6 s).trans (loadInto_plain hplain)
  · exact (exec_ldr dr baseR offset6 s).trans (loadInto_of_ok hread)
  · exact (exec_ldr dr baseR offset6 s).trans (loadInto_of_ended hread)
  · exact (exec_ldr dr baseR offset6 s).trans (loadInto_of_stuck hread)

/-- Settles O26: the decoder's LEA arm, and the address itself written as a result, with no read. -/
theorem loadAddressRule : Obligations.LoadAddressRule := by
  refine ⟨fun w hop => decode_of_lea (opcodeOf_of_nibble hop), fun dr offset9 s => ?_⟩
  rw [exec_lea, writeResult_eq, pcRelative]

/-- Settles O27: the decoder's ST arm, and SR written at the PC-relative address, whatever it is. -/
theorem storeRule : Obligations.StoreRule := by
  refine ⟨fun w hop => decode_of_st (opcodeOf_of_nibble hop), fun sr offset9 s => ?_⟩
  rw [exec_st, State.memWrite, pcRelative]

/-- Settles O28: the decoder's STI arm, the pointer read by its answers, and SR written at the pointer where it
completes. -/
theorem storeIndirectRule : Obligations.StoreIndirectRule := by
  refine ⟨fun w hop => decode_of_sti (opcodeOf_of_nibble hop), fun sr offset9 s =>
    ⟨fun hplain => ?_, fun p t hptr => ?_, fun t hptr => ?_, fun r hptr => ?_⟩⟩
  · exact exec_sti_of_ok (memRead_plain hplain)
  · exact exec_sti_of_ok hptr
  · rw [exec_sti, pcRelative, hptr, ended_andThen]
  · rw [exec_sti, pcRelative, hptr, stuck_andThen]

/-- Settles O29: the decoder's STR arm, and SR written at the base plus the offset, whatever that is. -/
theorem storeBaseRule : Obligations.StoreBaseRule := by
  refine ⟨fun w hop => decode_of_str (opcodeOf_of_nibble hop), fun sr baseR offset6 s => ?_⟩
  rw [exec_str, State.memWrite, basePlusOffset]

end Machine

end Sys2Proof
end

