-- ==== Sys2Proof/Proofs/TrapOut.lean ====
section
/-! LAWS. TRAP with the vector of OUT (R151, R153): the routine it runs, an emitted and flushed byte as one update of the
output, and the obligation they settle. -/

namespace Sys2Proof.Machine

/-- R151: the vector of OUT runs OUT, after the entry. -/
theorem exec_trap_out (s : State) : exec (.trap vectorOut) s = trapOut s.trapEntry := by
  change trapRoutine vectorOut s.trapEntry = _
  rw [trapRoutine, if_neg (by decide), if_pos rfl]

/-- Emitting a byte and flushing changes the output and nothing else, and leaves nothing unflushed (R194). -/
theorem flush_outByte (s : State) (b : Byte) :
    (s.outByte b).flush = { s with out := s.out ++ [b], flushed := s.out.length + 1 } := by
  rw [State.flush, outByte_out, List.length_append, List.length_singleton, State.outByte]

/-- Settles O33: the routine of OUT after the entry, whose link into R7 leaves the byte in R0. -/
theorem trapOutWritesLowByte : Obligations.TrapOutWritesLowByte := by
  intro s
  have hr0 : s.trapEntry.reg 0 = s.reg 0 := (reg_trapEntry s 0).trans (if_neg (by decide))
  rw [exec_trap_out, trapOut, trapReturn, flush_outByte, hr0, lowByte]
  rfl

end Sys2Proof.Machine
end

