-- ==== Sys2Proof/Proofs/Encoding.lean ====
section
/-! LAWS. Encoding and decoding (R70 to R76): the fields read back from each format, the formats rebuilt from a word's
fields on the bits a handler examines, the fields of two words that agree under a mask, and the obligations they
settle. -/

namespace Sys2Proof

variable {w x : Word}

theorem decode_of_trap (h : opcodeOf w = .trap) : decode w = .trap (field w 0 8) := by
  simp only [decode, h]

theorem decode_of_rti (h : opcodeOf w = .rti) : decode w = .rti := by
  simp only [decode, h]

theorem decode_of_res (h : opcodeOf w = .res) : decode w = .res := by
  simp only [decode, h]

/-- A word carries the number of its opcode (R70, R75). -/
theorem nibble_opcodeOf (w : Word) : (opcodeOf w).nibble = field w 12 4 := Opcode.nibble_ofNibble _

/-! ### The fields of each format (R72) -/

section Fields

variable (op : BitVec 4) (dr sr1 sr2 baseR : Reg) (top : BitVec 3) (imm5 : BitVec 5) (low : BitVec 6)
  (vector : BitVec 8) (offset9 : BitVec 9) (offset11 : BitVec 11)

@[simp] theorem opcode_encodeOpR : field (encodeOpR op dr sr1 sr2) 12 4 = op :=
  field_eq (by rw [encodeOpR_toNat]; omega)
@[simp] theorem bit5_encodeOpR : field (encodeOpR op dr sr1 sr2) 5 1 = 0#1 :=
  field_eq (by rw [encodeOpR_toNat, BitVec.toNat_ofNat]; omega)
@[simp] theorem dr_encodeOpR : regField (encodeOpR op dr sr1 sr2) 9 = dr :=
  regField_eq (by rw [encodeOpR_toNat]; omega)
@[simp] theorem sr1_encodeOpR : regField (encodeOpR op dr sr1 sr2) 6 = sr1 :=
  regField_eq (by rw [encodeOpR_toNat]; omega)
@[simp] theorem sr2_encodeOpR : regField (encodeOpR op dr sr1 sr2) 0 = sr2 :=
  regField_eq (by rw [encodeOpR_toNat]; omega)

@[simp] theorem opcode_encodeOpI : field (encodeOpI op dr sr1 imm5) 12 4 = op :=
  field_eq (by rw [encodeOpI_toNat]; omega)
@[simp] theorem bit5_encodeOpI : field (encodeOpI op dr sr1 imm5) 5 1 = 1#1 :=
  field_eq (by rw [encodeOpI_toNat, BitVec.toNat_ofNat]; omega)
@[simp] theorem dr_encodeOpI : regField (encodeOpI op dr sr1 imm5) 9 = dr :=
  regField_eq (by rw [encodeOpI_toNat]; omega)
@[simp] theorem sr1_encodeOpI : regField (encodeOpI op dr sr1 imm5) 6 = sr1 :=
  regField_eq (by rw [encodeOpI_toNat]; omega)
@[simp] theorem imm5_encodeOpI : field (encodeOpI op dr sr1 imm5) 0 5 = imm5 :=
  field_eq (by rw [encodeOpI_toNat]; omega)

@[simp] theorem opcode_encodePc9 : field (encodePc9 op top offset9) 12 4 = op :=
  field_eq (by rw [encodePc9_toNat]; omega)
@[simp] theorem top_encodePc9 : field (encodePc9 op top offset9) 9 3 = top :=
  field_eq (by rw [encodePc9_toNat]; omega)
@[simp] theorem dr_encodePc9 : regField (encodePc9 op (regBits dr) offset9) 9 = dr :=
  regField_eq (by rw [encodePc9_toNat, regBits_toNat]; omega)
@[simp] theorem offset9_encodePc9 : field (encodePc9 op top offset9) 0 9 = offset9 :=
  field_eq (by rw [encodePc9_toNat]; omega)

@[simp] theorem opcode_encodeBase6 : field (encodeBase6 op top baseR low) 12 4 = op :=
  field_eq (by rw [encodeBase6_toNat]; omega)
/-- JSRR's bit 11, the top bit of the three a base format leaves to the instruction. -/
@[simp] theorem bit11_encodeBase6 : field (encodeBase6 op 0#3 baseR low) 11 1 = 0#1 :=
  field_eq (by rw [encodeBase6_toNat, BitVec.toNat_ofNat, BitVec.toNat_ofNat]; omega)
@[simp] theorem dr_encodeBase6 : regField (encodeBase6 op (regBits dr) baseR low) 9 = dr :=
  regField_eq (by rw [encodeBase6_toNat, regBits_toNat]; omega)
@[simp] theorem baseR_encodeBase6 : regField (encodeBase6 op top baseR low) 6 = baseR :=
  regField_eq (by rw [encodeBase6_toNat]; omega)
@[simp] theorem low_encodeBase6 : field (encodeBase6 op top baseR low) 0 6 = low :=
  field_eq (by rw [encodeBase6_toNat]; omega)

@[simp] theorem opcode_encodeJsr : field (encodeJsr op offset11) 12 4 = op :=
  field_eq (by rw [encodeJsr_toNat]; omega)
@[simp] theorem bit11_encodeJsr : field (encodeJsr op offset11) 11 1 = 1#1 :=
  field_eq (by rw [encodeJsr_toNat, BitVec.toNat_ofNat]; omega)
@[simp] theorem offset11_encodeJsr : field (encodeJsr op offset11) 0 11 = offset11 :=
  field_eq (by rw [encodeJsr_toNat]; omega)

@[simp] theorem opcode_encodeTrap : field (encodeTrap op vector) 12 4 = op :=
  field_eq (by rw [encodeTrap_toNat]; omega)
@[simp] theorem vector_encodeTrap : field (encodeTrap op vector) 0 8 = vector :=
  field_eq (by rw [encodeTrap_toNat]; omega)

@[simp] theorem opcode_encodeNone : field (encodeNone op) 12 4 = op :=
  field_eq (by rw [encodeNone_toNat]; omega)

end Fields

/-! ### Words that agree under a mask -/

/-- A field that a mask keeps whole is the same in two words that agree under the mask. -/
theorem field_congr {m : Word} (h : w &&& m = x &&& m) (lo n : Nat)
    (hm : field m lo n = BitVec.allOnes n := by decide) :
    field x lo n = field w lo n := by
  have hkept : ∀ y : Word, field (y &&& m) lo n = field y lo n := fun y => by
    rw [field, BitVec.extractLsb'_and]
    change _ &&& field m lo n = _
    rw [hm, BitVec.and_allOnes, field]
  rw [← hkept x, ← h, hkept w]

theorem regField_congr {m : Word} (h : w &&& m = x &&& m) (lo : Nat)
    (hm : field m lo 3 = BitVec.allOnes 3 := by decide) :
    regField x lo = regField w lo := congrArg BitVec.toFin (field_congr h lo 3 hm)

/-- Every handler's word is examined for its opcode. -/
theorem opcode_examined (i : Instr) : field i.examined 12 4 = BitVec.allOnes 4 := by
  cases i <;> rw [Instr.examined] <;> decide

/-- A word that agrees with an instruction's own on the bits examined decodes to it: the mask keeps the opcode, the bit
that tells two forms apart, and each operand field. -/
theorem decode_of_agrees {i : Instr} (h : encode i &&& i.examined = x &&& i.examined) : decode x = i := by
  have hop : field x 12 4 = field (encode i) 12 4 := field_congr h 12 4 (opcode_examined i)
  cases i <;> rw [Instr.examined] at h
  case addReg dr sr1 sr2 =>
    rw [decode_of_add (opcodeOf_of_nibble (hop.trans (opcode_encodeOpR ..)))]
    simp [encode, field_congr h 5 1, regField_congr h 9, regField_congr h 6, regField_congr h 0]
  case addImm dr sr1 imm5 =>
    rw [decode_of_add (opcodeOf_of_nibble (hop.trans (opcode_encodeOpI ..)))]
    simp [encode, field_congr h 5 1, regField_congr h 9, regField_congr h 6, field_congr h 0 5]
  case andReg dr sr1 sr2 =>
    rw [decode_of_and (opcodeOf_of_nibble (hop.trans (opcode_encodeOpR ..)))]
    simp [encode, field_congr h 5 1, regField_congr h 9, regField_congr h 6, regField_congr h 0]
  case andImm dr sr1 imm5 =>
    rw [decode_of_and (opcodeOf_of_nibble (hop.trans (opcode_encodeOpI ..)))]
    simp [encode, field_congr h 5 1, regField_congr h 9, regField_congr h 6, field_congr h 0 5]
  case not dr sr =>
    rw [decode_of_not (opcodeOf_of_nibble (hop.trans (opcode_encodeBase6 ..)))]
    simp [encode, regField_congr h 9, regField_congr h 6]
  case br mask offset9 =>
    rw [decode_of_br (opcodeOf_of_nibble (hop.trans (opcode_encodePc9 ..)))]
    simp [encode, field_congr h 9 3, field_congr h 0 9]
  case jmp baseR =>
    rw [decode_of_jmp (opcodeOf_of_nibble (hop.trans (opcode_encodeBase6 ..)))]
    simp [encode, regField_congr h 6]
  case jsr offset11 =>
    rw [decode_of_jsr (opcodeOf_of_nibble (hop.trans (opcode_encodeJsr ..)))]
    simp [encode, field_congr h 11 1, field_congr h 0 11]
  case jsrr baseR =>
    rw [decode_of_jsr (opcodeOf_of_nibble (hop.trans (opcode_encodeBase6 ..)))]
    simp [encode, field_congr h 11 1, regField_congr h 6]
  case ld dr offset9 =>
    rw [decode_of_ld (opcodeOf_of_nibble (hop.trans (opcode_encodePc9 ..)))]
    simp [encode, regField_congr h 9, field_congr h 0 9]
  case ldi dr offset9 =>
    rw [decode_of_ldi (opcodeOf_of_nibble (hop.trans (opcode_encodePc9 ..)))]
    simp [encode, regField_congr h 9, field_congr h 0 9]
  case ldr dr baseR offset6 =>
    rw [decode_of_ldr (opcodeOf_of_nibble (hop.trans (opcode_encodeBase6 ..)))]
    simp [encode, regField_congr h 9, regField_congr h 6, field_congr h 0 6]
  case lea dr offset9 =>
    rw [decode_of_lea (opcodeOf_of_nibble (hop.trans (opcode_encodePc9 ..)))]
    simp [encode, regField_congr h 9, field_congr h 0 9]
  case st sr offset9 =>
    rw [decode_of_st (opcodeOf_of_nibble (hop.trans (opcode_encodePc9 ..)))]
    simp [encode, regField_congr h 9, field_congr h 0 9]
  case sti sr offset9 =>
    rw [decode_of_sti (opcodeOf_of_nibble (hop.trans (opcode_encodePc9 ..)))]
    simp [encode, regField_congr h 9, field_congr h 0 9]
  case str sr baseR offset6 =>
    rw [decode_of_str (opcodeOf_of_nibble (hop.trans (opcode_encodeBase6 ..)))]
    simp [encode, regField_congr h 9, regField_congr h 6, field_congr h 0 6]
  case trap vector =>
    rw [decode_of_trap (opcodeOf_of_nibble (hop.trans (opcode_encodeTrap ..)))]
    simp [encode, field_congr h 0 8]
  case rti => exact decode_of_rti (opcodeOf_of_nibble (hop.trans (opcode_encodeNone ..)))
  case res => exact decode_of_res (opcodeOf_of_nibble (hop.trans (opcode_encodeNone ..)))

/-- Settles O1: an instruction's own word agrees with itself. -/
theorem decodeOfEncodeIsTheInstruction : Obligations.DecodeOfEncodeIsTheInstruction := fun _ => decode_of_agrees rfl

/-! ### The formats rebuilt from a word's fields, on the bits examined (R76) -/

/-- Two words agree under a mask when they agree on each bit it keeps. -/
theorem and_eq_and_of_getLsbD {m : Word} (h : ∀ i < 16, m.getLsbD i = true → w.getLsbD i = x.getLsbD i) :
    w &&& m = x &&& m := by
  apply BitVec.eq_of_getLsbD_eq
  intro i hi
  rw [BitVec.getLsbD_and, BitVec.getLsbD_and]
  cases hm : m.getLsbD i with
  | false => simp
  | true => rw [h i hi hm]

/-- Neighbouring fields side by side are one field. -/
theorem field_append (w : Word) (lo m n : Nat) : field w (lo + m) n ++ field w lo m = field w lo (n + m) :=
  BitVec.extractLsb'_append_extractLsb'_eq_extractLsb' rfl

section Rebuilt

variable (w)

theorem field_whole : field w 0 16 = w := BitVec.extractLsb'_eq_self

theorem encodePc9_field : encodePc9 (field w 12 4) (field w 9 3) (field w 0 9) = w := by
  rw [encodePc9, field_append w 9 3 4, field_append w 0 9, field_whole]

theorem encodeBase6_field : encodeBase6 (field w 12 4) (field w 9 3) (regField w 6) (field w 0 6) = w := by
  rw [encodeBase6, regBits_regField, field_append w 9 3 4, field_append w 6 3, field_append w 0 6, field_whole]

variable {w}

theorem encodeOpI_field (h : field w 5 1 = 1#1) :
    encodeOpI (field w 12 4) (regField w 9) (regField w 6) (field w 0 5) = w := by
  rw [encodeOpI, regBits_regField, regBits_regField, ← h, field_append w 9 3 4, field_append w 6 3, field_append w 5 1,
    field_append w 0 5, field_whole]

theorem encodeJsr_field (h : field w 11 1 = 1#1) : encodeJsr (field w 12 4) (field w 0 11) = w := by
  rw [encodeJsr, ← h, field_append w 11 1 4, field_append w 0 11, field_whole]

theorem encodeOpR_field (h : field w 5 1 ≠ 1#1) :
    encodeOpR (field w 12 4) (regField w 9) (regField w 6) (regField w 0) &&& 0xFFE7 = w &&& 0xFFE7 := by
  have h5 : w[5] = false := by simpa [field] using congrArg (·[0]) ((BitVec.eq_zero_or_eq_one _).resolve_right h)
  refine and_eq_and_of_getLsbD fun i hi hm => ?_
  rw [encodeOpR_bit _ _ _ _ hi]
  interval_cases i <;> simp_all [regBits_regField, field]

/-- NOT's format: the six low bits are the encoder's. -/
theorem encodeBase6_field_of_low (low : BitVec 6) :
    encodeBase6 (field w 12 4) (field w 9 3) (regField w 6) low &&& 0xFFC0 = w &&& 0xFFC0 := by
  refine and_eq_and_of_getLsbD fun i hi hm => ?_
  rw [encodeBase6_bit _ _ _ _ hi]
  interval_cases i <;> simp_all [regBits_regField, field]

/-- JMP's format: the six low bits and the three above the base register are the encoder's. -/
theorem encodeBase6_field_of_top_low (top : BitVec 3) (low : BitVec 6) :
    encodeBase6 (field w 12 4) top (regField w 6) low &&& 0xF1C0 = w &&& 0xF1C0 := by
  refine and_eq_and_of_getLsbD fun i hi hm => ?_
  rw [encodeBase6_bit _ _ _ _ hi]
  interval_cases i <;> simp_all [regBits_regField, field]

/-- JSRR's format: as JMP's, but that bit 11 tells it from JSR. -/
theorem encodeBase6_field_of_bit11 (h : field w 11 1 ≠ 1#1) (low : BitVec 6) :
    encodeBase6 (field w 12 4) 0#3 (regField w 6) low &&& 0xF9C0 = w &&& 0xF9C0 := by
  have h11 : w[11] = false := by simpa [field] using congrArg (·[0]) ((BitVec.eq_zero_or_eq_one _).resolve_right h)
  refine and_eq_and_of_getLsbD fun i hi hm => ?_
  rw [encodeBase6_bit _ _ _ _ hi]
  interval_cases i <;> simp_all [regBits_regField, field]

theorem encodeTrap_field : encodeTrap (field w 12 4) (field w 0 8) &&& 0xF0FF = w &&& 0xF0FF := by
  refine and_eq_and_of_getLsbD fun i hi hm => ?_
  rw [encodeTrap_bit _ _ hi]
  interval_cases i <;> simp_all [field]

theorem encodeNone_field : encodeNone (field w 12 4) &&& 0xF000 = w &&& 0xF000 := by
  refine and_eq_and_of_getLsbD fun i hi hm => ?_
  rw [encodeNone_bit _ hi]
  interval_cases i <;> simp_all [field]

end Rebuilt

/-- Settles O2: the opcode's number is the word's, and each format is rebuilt from the word's fields. -/
theorem encodeOfDecodeKeepsExaminedBits : Obligations.EncodeOfDecodeKeepsExaminedBits := by
  intro w
  have hnibble := nibble_opcodeOf w
  cases hop : opcodeOf w <;> rw [hop] at hnibble
  case add =>
    rw [decode_of_add hop]
    split
    · next hbit => rw [encode, hnibble, encodeOpI_field hbit]
    · next hbit => rw [encode, hnibble]; exact encodeOpR_field hbit
  case and =>
    rw [decode_of_and hop]
    split
    · next hbit => rw [encode, hnibble, encodeOpI_field hbit]
    · next hbit => rw [encode, hnibble]; exact encodeOpR_field hbit
  case jsr =>
    rw [decode_of_jsr hop]
    split
    · next hbit => rw [encode, hnibble, encodeJsr_field hbit]
    · next hbit => rw [encode, hnibble]; exact encodeBase6_field_of_bit11 hbit _
  case br => rw [decode_of_br hop, encode, hnibble, encodePc9_field]
  case ld => rw [decode_of_ld hop, encode, hnibble, regBits_regField, encodePc9_field]
  case ldi => rw [decode_of_ldi hop, encode, hnibble, regBits_regField, encodePc9_field]
  case lea => rw [decode_of_lea hop, encode, hnibble, regBits_regField, encodePc9_field]
  case st => rw [decode_of_st hop, encode, hnibble, regBits_regField, encodePc9_field]
  case sti => rw [decode_of_sti hop, encode, hnibble, regBits_regField, encodePc9_field]
  case ldr => rw [decode_of_ldr hop, encode, hnibble, regBits_regField, encodeBase6_field]
  case str => rw [decode_of_str hop, encode, hnibble, regBits_regField, encodeBase6_field]
  case not => rw [decode_of_not hop, encode, hnibble, regBits_regField]; exact encodeBase6_field_of_low _
  case jmp => rw [decode_of_jmp hop, encode, hnibble]; exact encodeBase6_field_of_top_low _ _
  case trap => rw [decode_of_trap hop, encode, hnibble]; exact encodeTrap_field
  case rti => rw [decode_of_rti hop, encode, hnibble]; exact encodeNone_field
  case res => rw [decode_of_res hop, encode, hnibble]; exact encodeNone_field

/-- Settles O4: a word that agrees with one of the instruction's words agrees with the encoder's, by O2. -/
theorem unexaminedBitsChangeNothing : Obligations.UnexaminedBitsChangeNothing := fun w _ h =>
  decode_of_agrees ((encodeOfDecodeKeepsExaminedBits w).trans h)

/-- Settles O5: the decoder evaluated on each word. -/
theorem vectorWordsDecode : Obligations.VectorWordsDecode := by
  refine ⟨?_, ?_, ?_, ?_, ?_, ?_, ?_, ?_, ?_, ?_, ?_, ?_, ?_⟩ <;> decide

end Sys2Proof
end

