-- ==== Sys2Proof/Proofs/Table.lean ====
section
/-! LAWS. The rows of spec/opcode_table.json (R75, R77): a row, and the instruction's choice of one, look at six bits of
the word alone, so the table is checked on the 64 words of those bits. -/

namespace Sys2Proof

/-- The bits that tell the rows apart: the opcode, bit 11 and bit 5. -/
def rowBits : Word := 0xF820

/-- The word with these bits alone. -/
def rowWord (n : BitVec 4) (b11 b5 : BitVec 1) : Word := n ++ b11 ++ 0#5 ++ b5 ++ 0#5

theorem and_rowBits (w : Word) : w &&& rowBits = rowWord (field w 12 4) (field w 11 1) (field w 5 1) := by
  apply BitVec.eq_of_getLsbD_eq
  intro i hi
  change _ = BitVec.getLsbD (w := 4 + 1 + 5 + 1 + 5) (_ ++ _ ++ _ ++ _ ++ _) i
  rw [BitVec.getLsbD_and]
  simp only [BitVec.getLsbD_append, rowBits]
  interval_cases i <;> simp [field]

/-- No row of the table looks at any other bit. -/
theorem admits_and_rowBits (w : Word) {r : TableRow} (hr : r ∈ opcodeTable) :
    r.admits (w &&& rowBits) = r.admits w := by
  have hmask : ∀ r ∈ opcodeTable, rowBits &&& r.mask = r.mask := by decide
  rw [TableRow.admits, BitVec.and_assoc, hmask r hr, TableRow.admits]

/-- The row of the decoded instruction hangs on no other bit. -/
theorem tableRow_decode_and_rowBits (w : Word) : (decode (w &&& rowBits)).tableRow = (decode w).tableRow := by
  have hagree : w &&& rowBits = w &&& rowBits &&& rowBits := by rw [BitVec.and_assoc, BitVec.and_self]
  have hop : opcodeOf (w &&& rowBits) = opcodeOf w := congrArg Opcode.ofNibble (field_congr hagree 12 4)
  unfold decode
  rw [hop, field_congr hagree 5 1, field_congr hagree 11 1]
  cases opcodeOf w
  case add | and | jsr => dsimp only; split <;> rfl
  all_goals rfl

/-- The table on the 64 words of the six bits. -/
theorem filter_admits_rowWord : ∀ (n : BitVec 4) (b11 b5 : BitVec 1),
    opcodeTable.filter (fun r => r.admits (rowWord n b11 b5)) = [(decode (rowWord n b11 b5)).tableRow] := by
  decide

/-- Settles O3: on the six bits the table looks at. -/
theorem everyWordHasExactlyItsOneTableRow : Obligations.EveryWordHasExactlyItsOneTableRow := by
  intro w
  have hrows : opcodeTable.filter (fun r => r.admits w) = opcodeTable.filter (fun r => r.admits (w &&& rowBits)) :=
    List.filter_congr fun r hr => (admits_and_rowBits w hr).symm
  rw [hrows, ← tableRow_decode_and_rowBits, and_rowBits, filter_admits_rowWord]

end Sys2Proof
end

