-- ==== Sys2Proof/Proofs/Cycle.lean ====
section
/-! LAWS. The cycle (R91 to R96): a step from a terminal status, from Running where the termination check fires, and
where it does not, and the obligations they settle. -/

namespace Sys2Proof.Machine

variable {s t : State}

/-- No cycle runs from a terminal status (R34, R98). -/
theorem step_of_terminal (hs : s.status ≠ .running) : step s = .fault .runEnded := by
  unfold step
  split
  · next hrun => exact absurd hrun hs
  all_goals rfl

theorem step_of_running (hs : s.status = .running) : step s = cycle s := by
  rw [step, hs]

theorem step_of_due (hs : s.status = .running) (hdue : terminationDue s = true) : step s = .next s.finish := by
  rw [step_of_running hs, cycle, if_pos hdue]

theorem step_of_not_due (hs : s.status = .running) (hdue : terminationDue s = false) :
    step s = (memRead s.pc s).andThen fun w t => exec (decode w) t.advancePc := by
  rw [step_of_running hs, cycle, if_neg (by rw [hdue]; decide), fetch]

/-! ### The termination check (R91) -/

theorem terminationDue_of_wrap (h : s.cfg.pcBound = .wrap) : terminationDue s = false := by
  rw [terminationDue, h]

theorem terminationDue_of_stopAtTop (h : s.cfg.pcBound = .stopAtTop) : terminationDue s = decide (s.pc = 0xFFFF) := by
  rw [terminationDue, h]

theorem terminationDue_of_stopAfterTop (h : s.cfg.pcBound = .stopAfterTop) : terminationDue s = s.topCarry := by
  rw [terminationDue, h]

/-- Settles O41: the check of each mode, and the step where it fires. -/
theorem terminationCheckOfEachMode : Obligations.TerminationCheckOfEachMode := by
  refine fun s hs => ⟨terminationDue_of_wrap, fun hmode => ⟨fun hpc => ?_, fun hpc => ?_⟩,
    fun hmode => ⟨fun hcarry => ?_, fun hcarry => ?_⟩⟩
  · exact step_of_due hs ((terminationDue_of_stopAtTop hmode).trans (decide_eq_true hpc))
  · exact (terminationDue_of_stopAtTop hmode).trans (decide_eq_false hpc)
  · exact step_of_due hs ((terminationDue_of_stopAfterTop hmode).trans hcarry)
  · exact (terminationDue_of_stopAfterTop hmode).trans hcarry

/-! ### The fetch and the pre-increment (R92, R93) -/

/-- The pre-increment after a fetch, in terms of the state before it. -/
theorem Polled.advancePc_eq (h : Polled s t) : t.advancePc = { t with
    pc := s.pc + 1
    topCarry := if s.cfg.pcBound = .stopAfterTop then decide (s.pc = 0xFFFF) else s.topCarry } := by
  rw [State.advancePc, h.pc, h.cfg, h.topCarry]

/-- A cycle whose fetch completes runs the instruction its word decodes to (R94). -/
theorem step_of_fetch_ok {w : Word} (hs : s.status = .running) (hdue : terminationDue s = false)
    (hfetch : memRead s.pc s = .ok w t) : step s = exec (decode w) { t with
      pc := s.pc + 1
      topCarry := if s.cfg.pcBound = .stopAfterTop then decide (s.pc = 0xFFFF) else s.topCarry } := by
  rw [step_of_not_due hs hdue, hfetch, ok_andThen, (memRead_ok hfetch).1.advancePc_eq]

/-- Settles O40: the cycle by what its fetch answers. -/
theorem stepRunsTheDecodedInstruction : Obligations.StepRunsTheDecodedInstruction := by
  refine fun s hs hdue => ⟨fun i hplain hi => ?_, fun w t i hfetch hi => ?_, fun t hfetch => ⟨?_, ?_⟩,
    fun r hfetch => ?_⟩
  · rw [step_of_fetch_ok hs hdue (memRead_plain hplain), State.word, hi]
  · rw [step_of_fetch_ok hs hdue hfetch, hi]
  · rw [step_of_not_due hs hdue, hfetch, ended_andThen]
  · rw [(memRead_ended hfetch).2.2.2, raise_pc]
  · rw [step_of_not_due hs hdue, hfetch, stuck_andThen]

end Sys2Proof.Machine
end

