-- ==== Sys2Proof/Proofs/Frame.lean ====
section
/-! LAWS. What a handler may change, as a relation between the states before and after it that is reflexive and
transitive: one rule for each state update, one for each access, and so one fact about `exec`. The frame statements read
its fields. -/

namespace Sys2Proof.Machine

/-- How the handler of an instruction may end the run (R97, R180). -/
def EndCause (i : Instr) : Status → Prop
  | .halted => i = .trap 0x25#8
  | .errored .keyboardInputError => i.readsMemory = true ∨ i = .trap 0x20#8 ∨ i = .trap 0x23#8
  | .errored (.illegalTrap v) => i = .trap v ∧ knownVector v = false
  | .errored (.illegalOpcode op) => (i = .rti ∧ op = 0x8#4) ∨ (i = .res ∧ op = 0xD#4)
  | .errored _ | .running | .finished => False

theorem EndCause.runError {i : Instr} {e : Error} (h : EndCause i (.errored e)) : RunError e := by
  cases e with
  | keyboardInputError => trivial
  | illegalTrap v => exact h.2
  | illegalOpcode op => exact h.imp And.right And.right
  | outOfBounds _ | notEnoughArguments | incorrectFileName _ _ | badFile => exact h

/-- What holds of the states before and after the handler of an instruction, or a part of it. A rule for a state update
gives the fields that the update concerns; the others hold by what they say of an update that leaves them alone. -/
structure Kept (i : Instr) (s t : State) : Prop where
  regs : ∀ r ∉ i.mayWrite, t.reg r = s.reg r := by intros; rfl
  pc : i.writesPc = false → t.pc = s.pc ∧ t.topCarry = s.topCarry := by exact fun _ => ⟨rfl, rfl⟩
  cond : i.writesCond = false → t.cond = s.cond := by intros; rfl
  count : t.count = s.count := by rfl
  cfg : t.cfg = s.cfg := by rfl
  inp : t.inp <:+ s.inp := by exact List.suffix_refl _
  out : s.out <+: t.out := by exact List.prefix_refl _
  flushed : s.flushed ≤ s.out.length → s.flushed ≤ t.flushed ∧ t.flushed ≤ t.out.length := by
    exact fun h => ⟨Nat.le_refl _, h⟩
  mem : i.stores = false → i.readsMemory = false → t.mem = s.mem := by intros; rfl
  word : i.stores = false → ∀ a, a ≠ s.cfg.kbsrAddr → a ≠ s.cfg.kbdrAddr → t.word a = s.word a := by intros; rfl
  /-- A poll shows in the input. -/
  polled : i.stores = false → t.inp = s.inp → t.mem = s.mem := by intros; rfl
  status : t.status = s.status ∨ EndCause i t.status := by exact .inl rfl
  inv : s.Inv → t.Inv := by exact fun h => ⟨h.mem, h.cond, h.count, h.flushed, h.topCarry, h.status, h.cfg⟩

variable {i : Instr} {s t u : State}

theorem Kept.refl (i : Instr) (s : State) : Kept i s s where

theorem Kept.trans (h : Kept i s t) (g : Kept i t u) : Kept i s u where
  regs r hr := (g.regs r hr).trans (h.regs r hr)
  pc hi := ⟨(g.pc hi).1.trans (h.pc hi).1, (g.pc hi).2.trans (h.pc hi).2⟩
  cond hi := (g.cond hi).trans (h.cond hi)
  count := g.count.trans h.count
  cfg := g.cfg.trans h.cfg
  inp := g.inp.trans h.inp
  out := h.out.trans g.out
  flushed hs :=
    have ht := h.flushed hs
    ⟨ht.1.trans (g.flushed ht.2).1, (g.flushed ht.2).2⟩
  mem hs hr := (g.mem hs hr).trans (h.mem hs hr)
  word hs a h1 h2 := (g.word hs a (h.cfg ▸ h1) (h.cfg ▸ h2)).trans (h.word hs a h1 h2)
  polled hs hinp := by
    have htu : t.inp = u.inp := (g.inp.eq_of_length_le (hinp ▸ h.inp.length_le)).symm
    rw [g.polled hs htu.symm, h.polled hs (htu.trans hinp)]
  status := g.status.elim (fun e => e ▸ h.status) .inr
  inv hs := g.inv (h.inv hs)

/-! ### The state updates -/

theorem kept_setReg {r : Reg} (hr : r ∈ i.mayWrite) (v : Word) : Kept i s (s.setReg r v) where
  regs q hq := by
    have hqr : q ≠ r := fun e => hq (e ▸ hr)
    rw [reg_setReg, if_neg hqr]

/-- A flag is one of three (R27, R28). -/
theorem flagOf_cases (v : Word) : flagOf v = flagPos ∨ flagOf v = flagZro ∨ flagOf v = flagNeg := by
  unfold flagOf
  split
  · exact .inr (.inl rfl)
  · split
    · exact .inr (.inr rfl)
    · exact .inl rfl

theorem kept_setcc (hc : i.writesCond = true) (v : Word) : Kept i s (s.setcc v) where
  cond hn := absurd hc (by simp [hn])
  inv h := ⟨h.mem, flagOf_cases v, h.count, h.flushed, h.topCarry, h.status, h.cfg⟩

theorem kept_writeResult {dr : Reg} (hr : dr ∈ i.mayWrite) (hc : i.writesCond = true) (v : Word) :
    Kept i s (s.writeResult dr v) :=
  (kept_setReg hr v).trans (kept_setcc hc v)

theorem kept_setPc (hp : i.writesPc = true) (target : Word) : Kept i s (s.setPc target) where
  pc hn := absurd hp (by simp [hn])
  inv h := by
    refine ⟨h.mem, h.cond, h.count, h.flushed, fun hcarry => ?_, h.status, h.cfg⟩
    rw [setPc_topCarry] at hcarry
    split at hcarry
    · cases hcarry
    · next hmode => exact absurd (h.topCarry hcarry).1 hmode

theorem kept_memWrite (hs : i.stores = true) (a v : Word) : Kept i s (s.memWrite a v) where
  mem hn := absurd hs (by simp [hn])
  word hn := absurd hs (by simp [hn])
  polled hn := absurd hs (by simp [hn])
  inv h := ⟨write_wf h.mem a v, h.cond, h.count, h.flushed, h.topCarry, h.status, h.cfg⟩

theorem kept_raise {e : Error} (he : EndCause i (.errored e)) : Kept i s (s.raise e) where
  status := .inr he
  inv h := by
    refine ⟨h.mem, h.cond, h.count, h.flushed, h.topCarry, fun d hd => ?_, h.cfg⟩
    cases hd
    exact he.runError

theorem kept_halt (hi : i = .trap 0x25#8) : Kept i s s.halt where
  status := .inr hi
  inv h := ⟨h.mem, h.cond, h.count, h.flushed, h.topCarry, nofun, h.cfg⟩

theorem kept_outBytes (bs : List Byte) : Kept i s (s.outBytes bs) where
  out := List.prefix_append _ _
  flushed h := ⟨Nat.le_refl _, h.trans (List.prefix_append _ _).length_le⟩
  inv h := ⟨h.mem, h.cond, h.count, h.flushed.trans (List.prefix_append _ _).length_le, h.topCarry, h.status, h.cfg⟩

theorem kept_outByte (b : Byte) : Kept i s (s.outByte b) := kept_outBytes [b]

theorem kept_flush : Kept i s s.flush where
  flushed h := ⟨h, Nat.le_refl _⟩
  inv h := ⟨h.mem, h.cond, h.count, Nat.le_refl _, h.topCarry, h.status, h.cfg⟩

theorem kept_takeByte {b : Byte} {rest : List Byte} (hinp : s.inp = b :: rest) : Kept i s { s with inp := rest } where
  inp := hinp ▸ List.suffix_cons b rest

/-- What a poll leaves satisfies the invariant. -/
theorem Polled.inv (h : Polled s t) (hs : s.Inv) : t.Inv where
  mem := h.wf hs.mem
  cond := h.cond ▸ hs.cond
  count := h.count ▸ hs.count
  flushed := by rw [h.flushed, h.out]; exact hs.flushed
  topCarry := by rw [h.topCarry, h.cfg, h.pc]; exact hs.topCarry
  status := h.status ▸ hs.status
  cfg := h.cfg ▸ hs.cfg

/-- A poll by an instruction that reads memory, seen in the input if it changed memory. -/
theorem Polled.kept (h : Polled s t) (hr : i.readsMemory = true) (hmem : t.inp = s.inp → t.mem = s.mem) :
    Kept i s t where
  regs r _ := reg_congr h.regs r
  pc _ := ⟨h.pc, h.topCarry⟩
  cond _ := h.cond
  count := h.count
  cfg := h.cfg
  inp := h.inp
  out := by rw [h.out]
  flushed hs := by rw [h.flushed, h.out]; exact ⟨Nat.le_refl _, hs⟩
  mem _ hn := absurd hr (by simp [hn])
  word _ := h.word
  polled _ := hmem
  status := .inl h.status
  inv := h.inv

/-! ### The accesses -/

/-- Every state an access leads to is one the handler may reach. -/
def Access.Keeps {α : Type} (i : Instr) (s : State) (x : Access α) : Prop :=
  (∀ v t, x = .ok v t → Kept i s t) ∧ ∀ t, x = .ended t → Kept i s t

/-- Every next state is one the handler may reach. -/
def Keeps (i : Instr) (s : State) (o : Outcome State Fault Refusal) : Prop := ∀ t, o = .next t → Kept i s t

variable {α β : Type} {x : Access α} {o : Outcome State Fault Refusal}

theorem keeps_next (h : Kept i s t) : Keeps i s (.next t) := by
  intro t' e
  cases e
  exact h

theorem Keeps.after (h : Kept i s t) (ho : Keeps i t o) : Keeps i s o := fun u e => h.trans (ho u e)

theorem Access.Keeps.after (h : Kept i s t) (hx : x.Keeps i t) : x.Keeps i s :=
  ⟨fun v u e => h.trans (hx.1 v u e), fun u e => h.trans (hx.2 u e)⟩

theorem keeps_ok (h : Kept i s t) (v : α) : (Access.ok v t).Keeps i s :=
  ⟨fun _ _ e => by cases e; exact h, nofun⟩

theorem keeps_bind {f : α → State → Access β} (hx : x.Keeps i s) (hf : ∀ v t, (f v t).Keeps i t) :
    (x.bind f).Keeps i s := by
  cases x with
  | ok v t => exact (hf v t).after (hx.1 v t rfl)
  | ended t => exact ⟨nofun, fun u e => by cases e; exact hx.2 t rfl⟩
  | stuck r => exact ⟨nofun, nofun⟩

theorem keeps_andThen {k : α → State → Outcome State Fault Refusal} (hx : x.Keeps i s)
    (hk : ∀ v t, Keeps i t (k v t)) : Keeps i s (x.andThen k) := by
  cases x with
  | ok v t => exact (hk v t).after (hx.1 v t rfl)
  | ended t => exact keeps_next (hx.2 t rfl)
  | stuck r => exact nofun

theorem keeps_inByte (hi : i = .trap 0x20#8 ∨ i = .trap 0x23#8) (s : State) : (inByte s).Keeps i s := by
  refine ⟨fun b t h => ?_, fun t h => ?_⟩
  · obtain ⟨rest, hinp, rfl⟩ := inByte_ok h
    exact kept_takeByte hinp
  · obtain ⟨-, -, rfl⟩ := inByte_ended h
    exact kept_raise (.inr hi)

/-- A read that took no byte changed nothing. -/
theorem memRead_eq_self {a v : Word} (h : memRead a s = .ok v t) (hinp : t.inp = s.inp) : t = s := by
  rcases memRead_cases a s with ⟨-, e⟩ | ⟨-, b, rest, hi, e⟩ | ⟨-, -, -, e⟩ | ⟨-, -, -, e⟩ <;> rw [e] at h <;> cases h
  · rfl
  · rw [latchKey_inp, hi] at hinp
    exact absurd hinp.symm (List.cons_ne_self b rest)

theorem keeps_memRead (hr : i.readsMemory = true) (a : Word) (s : State) : (memRead a s).Keeps i s := by
  refine ⟨fun v t h => ?_, fun t h => ?_⟩
  · exact (memRead_ok h).1.kept hr fun hinp => by rw [memRead_eq_self h hinp]
  · obtain ⟨-, -, -, rfl⟩ := memRead_ended h
    exact kept_raise (.inl hr)

theorem EmitsOnly.kept {emit : Word → State → State} (he : EmitsOnly emit) (w : Word) (s : State) :
    Kept i s (emit w s) := by
  obtain ⟨bs, hbs⟩ := he.eq w s
  exact hbs ▸ kept_outBytes bs

theorem keeps_scan {emit : Word → State → State} (he : EmitsOnly emit) (hr : i.readsMemory = true) :
    ∀ (n : Nat) (a : Word) (s : State), (scan emit n a s).Keeps i s := by
  intro n
  induction n with
  | zero => exact fun a s => ⟨nofun, nofun⟩
  | succ n ih =>
    intro a s
    refine keeps_bind (keeps_memRead hr a s) fun w t => ?_
    split
    · exact keeps_ok (.refl i t) ()
    · exact (ih (a + 1) (emit w t)).after (he.kept w t)

/-! ### The handlers -/

theorem keeps_loadInto {dr : Reg} (hr : i.readsMemory = true) (hdr : dr ∈ i.mayWrite) (hc : i.writesCond = true)
    (a : Word) (s : State) : Keeps i s (loadInto dr a s) :=
  keeps_andThen (keeps_memRead hr a s) fun v _ => keeps_next (kept_writeResult hdr hc v)

theorem keeps_reservedOp {op : BitVec 4} (he : EndCause i (.errored (.illegalOpcode op))) (s : State) :
    Keeps i s (.next (s.reservedOp op)) := by
  unfold State.reservedOp
  split
  · exact keeps_next (kept_raise he)
  · exact keeps_next (.refl i s)

theorem keeps_trapPuts (s : State) : Keeps (.trap 0x22) s (trapPuts s) :=
  keeps_andThen (keeps_scan emitChar_emits (by decide) ..) fun _ _ => keeps_next kept_flush

theorem keeps_trapPutsp (s : State) : Keeps (.trap 0x24) s (trapPutsp s) :=
  keeps_andThen (keeps_scan emitPacked_emits (by decide) ..) fun _ _ => keeps_next kept_flush

theorem keeps_trapGetc (s : State) : Keeps (.trap 0x20) s (trapGetc s) :=
  keeps_andThen (keeps_inByte (.inl rfl) s) fun b _ => keeps_next (kept_setReg (by decide) (zext b))

theorem keeps_trapOut (s : State) : Keeps (.trap 0x21) s (trapOut s) :=
  keeps_next ((kept_outByte _).trans kept_flush)

theorem keeps_trapIn (s : State) : Keeps (.trap 0x23) s (trapIn s) := by
  have hprompt : Kept (.trap 0x23) s (s.outBytes s.cfg.inPrompt).flush := (kept_outBytes _).trans kept_flush
  refine keeps_andThen ((keeps_inByte (.inr rfl) _).after hprompt) fun b t => keeps_next ?_
  exact ((kept_outByte b).trans kept_flush).trans (kept_writeResult (by decide) (by decide) (zext b))

theorem keeps_trapHalt (s : State) : Keeps (.trap 0x25) s (trapHalt s) :=
  keeps_next (((kept_outBytes _).trans kept_flush).trans (kept_halt rfl))

theorem knownVector_eq_false {v : BitVec 8} (h : v ≠ 0x20 ∧ v ≠ 0x21 ∧ v ≠ 0x22 ∧ v ≠ 0x23 ∧ v ≠ 0x24 ∧ v ≠ 0x25) :
    knownVector v = false := by
  obtain ⟨h0, h1, h2, h3, h4, h5⟩ := h
  refine decide_eq_false ?_
  rintro (h | h | h | h | h | h)
  exacts [h0 h, h1 h, h2 h, h3 h, h4 h, h5 h]

theorem keeps_execTrap (v : BitVec 8) (s : State) : Keeps (.trap v) s (execTrap v s) := by
  have hentry : Kept (.trap v) s s.trapEntry := kept_setReg (by rw [Instr.mayWrite]; split <;> decide) s.pc
  refine Keeps.after hentry ?_
  rcases execTrap_cases v s with ⟨rfl, e⟩ | ⟨rfl, e⟩ | ⟨rfl, e⟩ | ⟨rfl, e⟩ | ⟨rfl, e⟩ | ⟨rfl, e⟩ | ⟨hv, e⟩ <;> rw [e]
  · exact keeps_trapGetc _
  · exact keeps_trapOut _
  · exact keeps_trapPuts _
  · exact keeps_trapIn _
  · exact keeps_trapPutsp _
  · exact keeps_trapHalt _
  · exact keeps_next (kept_raise ⟨rfl, knownVector_eq_false hv⟩)

/-- What the handler of each instruction may change. -/
theorem keeps_exec (i : Instr) (s : State) : Keeps i s (exec i s) := by
  cases i with
  | addReg dr sr1 sr2 => exact keeps_next (kept_writeResult (List.mem_singleton_self dr) rfl _)
  | addImm dr sr1 imm5 => exact keeps_next (kept_writeResult (List.mem_singleton_self dr) rfl _)
  | andReg dr sr1 sr2 => exact keeps_next (kept_writeResult (List.mem_singleton_self dr) rfl _)
  | andImm dr sr1 imm5 => exact keeps_next (kept_writeResult (List.mem_singleton_self dr) rfl _)
  | not dr sr => exact keeps_next (kept_writeResult (List.mem_singleton_self dr) rfl _)
  | lea dr offset9 => exact keeps_next (kept_writeResult (List.mem_singleton_self dr) rfl _)
  | br mask offset9 =>
    rw [exec_br]
    split
    · exact keeps_next (kept_setPc rfl _)
    · exact keeps_next (.refl _ s)
  | jmp baseR => exact keeps_next (kept_setPc rfl _)
  | jsr offset11 => exact keeps_next ((kept_setReg (List.mem_singleton_self 7) s.pc).trans (kept_setPc rfl _))
  | jsrr baseR => exact keeps_next ((kept_setReg (List.mem_singleton_self 7) s.pc).trans (kept_setPc rfl _))
  | ld dr offset9 => exact keeps_loadInto rfl (List.mem_singleton_self dr) rfl _ s
  | ldr dr baseR offset6 => exact keeps_loadInto rfl (List.mem_singleton_self dr) rfl _ s
  | ldi dr offset9 =>
    rw [exec_ldi]
    exact keeps_andThen (keeps_memRead rfl _ s) fun p t => keeps_loadInto rfl (List.mem_singleton_self dr) rfl p t
  | st sr offset9 => exact keeps_next (kept_memWrite rfl _ _)
  | str sr baseR offset6 => exact keeps_next (kept_memWrite rfl _ _)
  | sti sr offset9 =>
    rw [exec_sti]
    exact keeps_andThen (keeps_memRead rfl _ s) fun p t => keeps_next (kept_memWrite rfl p _)
  | trap v => exact keeps_execTrap v s
  | rti => exact keeps_reservedOp (.inl ⟨rfl, rfl⟩) s
  | res => exact keeps_reservedOp (.inr ⟨rfl, rfl⟩) s

/-! ### The frame statements -/

/-- Settles O46: the registers that the handler keeps. -/
theorem otherRegistersUnchanged : Obligations.OtherRegistersUnchanged := fun i s t r h =>
  (keeps_exec i s t h).regs r

/-- Settles O47: COND as the handler keeps it. -/
theorem onlyListedInstructionsWriteCond : Obligations.OnlyListedInstructionsWriteCond := fun i s t h =>
  (keeps_exec i s t h).cond

/-- Settles O49: PC and topCarry as the handler keeps them. -/
theorem onlyControlTransfersWritePc : Obligations.OnlyControlTransfersWritePc := fun i s t h =>
  (keeps_exec i s t h).pc

/-- Settles O51: memory as a handler that does not store keeps it: whole without a read, outside the keyboard words with
one, and whole again when no poll took a byte. -/
theorem formsThatDoNotStoreKeepMemory : Obligations.FormsThatDoNotStoreKeepMemory := by
  intro i s t h hstores
  have hkept := keeps_exec i s t h
  exact ⟨fun hreads => word_congr (hkept.mem hstores hreads), hkept.word hstores,
    fun _ hinp => word_congr (hkept.polled hstores hinp)⟩

/-- Settles O43: the terminal statuses have no cycle, and from Running a handler's status is Running or has its
cause. -/
theorem endsOfARunHaveTheirCauses : Obligations.EndsOfARunHaveTheirCauses := by
  refine ⟨fun _ => step_of_terminal, fun i s t hs h => ?_⟩
  have hend : t.status = .running ∨ EndCause i t.status := hs ▸ (keeps_exec i s t h).status
  refine ⟨fun hh => ?_, fun hf => ?_, fun e he => ?_⟩
  · rw [hh] at hend
    exact hend.resolve_left nofun
  · rw [hf] at hend
    exact hend.elim nofun id
  · rw [he] at hend
    replace hend := hend.resolve_left nofun
    cases e with
    | keyboardInputError => exact .inl rfl
    | illegalTrap v => exact .inr (.inl ⟨v, hend.1, hend.2, rfl⟩)
    | illegalOpcode op =>
      obtain ⟨hi, rfl⟩ | ⟨hi, rfl⟩ := hend
      · exact .inr (.inr (.inl ⟨hi, rfl⟩))
      · exact .inr (.inr (.inr ⟨hi, rfl⟩))
    | outOfBounds _ | notEnoughArguments | incorrectFileName _ _ | badFile => exact hend.elim

end Sys2Proof.Machine
end

