-- ==== Sys2Proof/Proofs/Invariant.lean ====
section
/-! LAWS. The invariant along a run (R26, R30, R31, R35, R48, R180, R194): a step by what it can be, the invariant at
reset and at launch, and the obligations they settle. -/

namespace Sys2Proof.Machine

variable {s t : State}

/-- A step ends the run at the PC bound, or in its fetch, or is a handler's work after a fetch and the pre-increment. -/
theorem step_cases (h : step s = .next t) :
    t = s.finish ∨ t = s.raise .keyboardInputError ∨ ∃ i u, Polled s u ∧ Kept i u.advancePc t := by
  obtain ⟨-, ⟨-, rfl⟩ | ⟨-, hfetch⟩ | ⟨-, w, u, hfetch, hexec⟩⟩ := step_next h
  · exact .inl rfl
  · exact .inr (.inl (memRead_ended hfetch).2.2.2)
  · exact .inr (.inr ⟨decode w, u, (memRead_ok hfetch).1, keeps_exec _ _ t hexec⟩)

/-- Settles O50: neither the ends of a run nor a fetch nor a handler touches COUNT or a parameter. -/
theorem countAndParametersNeverChange : Obligations.CountAndParametersNeverChange := by
  intro s t h
  obtain rfl | rfl | ⟨i, u, hfetch, hexec⟩ := step_cases h
  · exact ⟨rfl, rfl⟩
  · exact ⟨rfl, rfl⟩
  · exact ⟨hexec.count.trans hfetch.count, hexec.cfg.trans hfetch.cfg⟩

/-- Settles O53: a fetch takes input and emits nothing, and a handler does as `Kept` says. -/
theorem outputGrowsAndInputIsConsumed : Obligations.OutputGrowsAndInputIsConsumed := by
  intro s t h hflushed
  obtain rfl | rfl | ⟨i, u, hfetch, hexec⟩ := step_cases h
  · exact ⟨List.prefix_refl _, List.suffix_refl _, Nat.le_refl _, hflushed⟩
  · exact ⟨List.prefix_refl _, List.suffix_refl _, Nat.le_refl _, hflushed⟩
  · have hout : s.out <+: t.out := hfetch.out ▸ hexec.out
    have hu : u.flushed ≤ u.out.length := by rw [hfetch.flushed, hfetch.out]; exact hflushed
    have hfl : s.flushed ≤ t.flushed ∧ t.flushed ≤ t.out.length := hfetch.flushed ▸ hexec.flushed hu
    exact ⟨hout, hexec.inp.trans hfetch.inp, hfl.1, hfl.2⟩

/-- The pre-increment keeps the invariant: it sets topCarry under StopAfterTop only, where pc wraps to 0 (R93). -/
theorem advancePc_inv (h : s.Inv) : s.advancePc.Inv := by
  refine ⟨h.mem, h.cond, h.count, h.flushed, fun hcarry => ?_, h.status, h.cfg⟩
  rw [advancePc_topCarry] at hcarry
  split at hcarry
  · next hmode =>
    have hpc : s.pc = 0xFFFF := of_decide_eq_true hcarry
    refine ⟨hmode, ?_⟩
    rw [advancePc_pc, hpc]
    decide
  · next hmode => exact absurd (h.topCarry hcarry).1 hmode

theorem finish_inv (h : s.Inv) : s.finish.Inv :=
  ⟨h.mem, h.cond, h.count, h.flushed, h.topCarry, nofun, h.cfg⟩

theorem raise_inv {e : Error} (he : RunError e) (h : s.Inv) : (s.raise e).Inv :=
  ⟨h.mem, h.cond, h.count, h.flushed, h.topCarry, fun _ hd => by cases hd; exact he, h.cfg⟩

/-- Settles O54: each way a step can go keeps the invariant. -/
theorem everyStepKeepsInvariant : Obligations.EveryStepKeepsInvariant := by
  intro s t hs h
  obtain rfl | rfl | ⟨i, u, hfetch, hexec⟩ := step_cases h
  · exact finish_inv hs
  · exact raise_inv trivial hs
  · exact hexec.inv (advancePc_inv (hfetch.inv hs))

/-- A state at the start of a run satisfies the invariant when its memory is in canonical form (R210). -/
theorem start_inv {cfg : Config} (startPc : Option Word) (inp : List Byte) (origin : Word) {mem : Memory}
    (hcfg : cfg.WellFormed = true) (hmem : mem.wf) : (State.start cfg startPc inp origin mem).Inv where
  mem := hmem
  cond := .inr (.inl rfl)
  count := rfl
  flushed := Nat.le_refl _
  topCarry := nofun
  status := nofun
  cfg := hcfg

/-- Settles O55: reset is a start with the default parameters and the empty memory. -/
theorem resetSatisfiesInvariant : Obligations.ResetSatisfiesInvariant :=
  start_inv (cfg := defaultConfig) none [] typicalOrigin (by decide) reset_wf

/-- The loader's stores keep the canonical form. -/
theorem storeWords_wf {m : Memory} (hm : m.wf) (a : Word) (ws : List Word) : (storeWords m a ws).wf := by
  induction ws generalizing m a with
  | nil => exact hm
  | cons w ws ih => exact ih (write_wf hm a w) (a + 1)

theorem loadImage_wf {bytes : List Byte} {origin : Word} {mem : Memory} (h : loadImage bytes = .ok (origin, mem)) :
    mem.wf := by
  unfold loadImage at h
  split at h
  · split at h
    · cases h
      exact storeWords_wf reset_wf _ _
    · cases h
  · cases h

/-- Settles O56: an accepted launch is a start with the memory the loader stored. -/
theorem launchSatisfiesInvariant : Obligations.LaunchSatisfiesInvariant := by
  intro cfg startPc images inp s hcfg h
  obtain ⟨_, _, origin, mem, -, hload, rfl⟩ := launch_eq_ok h
  exact start_inv startPc inp origin hcfg (loadImage_wf hload)

end Sys2Proof.Machine
end

