-- ==== Sys2Proof/Proofs/Ends.lean ====
section
/-! LAWS. How a cycle ends: a Running state answers unless its input stalls (R98, R99), and what an error leaves (R182,
R183), with the obligations they settle. -/

namespace Sys2Proof.Machine

variable {i : Instr} {s t u : State} {e : Error}

/-! ### Answering -/

/-- An access has no next state only where it stalls on exhausted input. -/
def Access.StallsOnly {α : Type} (mode : InputEnd) (x : Access α) : Prop :=
  ∀ r, x = .stuck r → mode = .stall ∧ r = .inputStall

/-- A next state, or a stall on exhausted input under Stall: never a refusal and no other fault. -/
def Answers (mode : InputEnd) (o : Outcome State Fault Refusal) : Prop :=
  (∃ t, o = .next t) ∨ (mode = .stall ∧ o = .fault .inputStall)

theorem answers_next (mode : InputEnd) (t : State) : Answers mode (.next t) := .inl ⟨t, rfl⟩

theorem answers_andThen {α : Type} {mode : InputEnd} {x : Access α} {k : α → State → Outcome State Fault Refusal}
    (hx : x.StallsOnly mode) (hk : ∀ v t, x = .ok v t → Answers mode (k v t)) : Answers mode (x.andThen k) := by
  cases x with
  | ok v t => exact hk v t rfl
  | ended t => exact answers_next mode t
  | stuck r =>
    obtain ⟨hmode, rfl⟩ := hx r rfl
    exact .inr ⟨hmode, rfl⟩

theorem stallsOnly_inByte (s : State) : (inByte s).StallsOnly s.cfg.inputEnd := fun _ h => (inByte_stuck h).2

theorem stallsOnly_memRead (a : Word) (s : State) : (memRead a s).StallsOnly s.cfg.inputEnd :=
  fun _ h => (memRead_stuck h).2

/-- The scan's own bound is above its need, so it is never used up (log entry 9). -/
theorem stallsOnly_scan {emit : Word → State → State} (he : EmitsOnly emit) (a : Word) (s : State) :
    (scan emit (scanBound s) a s).StallsOnly s.cfg.inputEnd :=
  fun _ h => scan_stuck he (scanNeed_lt_scanBound a s) h

theorem answers_loadInto (dr : Reg) (a : Word) (s : State) : Answers s.cfg.inputEnd (loadInto dr a s) :=
  answers_andThen (stallsOnly_memRead a s) fun _ _ _ => answers_next _ _

theorem answers_execTrap (v : BitVec 8) (s : State) : Answers s.cfg.inputEnd (execTrap v s) := by
  rw [← trapEntry_cfg s]
  rcases execTrap_cases v s with ⟨-, e⟩ | ⟨-, e⟩ | ⟨-, e⟩ | ⟨-, e⟩ | ⟨-, e⟩ | ⟨-, e⟩ | ⟨-, e⟩ <;> rw [e]
  · exact answers_andThen (stallsOnly_inByte _) fun _ _ _ => answers_next _ _
  · exact answers_next _ _
  · exact answers_andThen (stallsOnly_scan emitChar_emits _ _) fun _ _ _ => answers_next _ _
  · exact answers_andThen (stallsOnly_inByte (s.trapEntry.outBytes _).flush) fun _ _ _ => answers_next _ _
  · exact answers_andThen (stallsOnly_scan emitPacked_emits _ _) fun _ _ _ => answers_next _ _
  · exact answers_next _ _
  · exact answers_next _ _

/-- Every instruction has a meaning that answers. -/
theorem answers_exec (i : Instr) (s : State) : Answers s.cfg.inputEnd (exec i s) := by
  cases i with
  | ld dr offset9 => exact answers_loadInto dr _ s
  | ldr dr baseR offset6 => exact answers_loadInto dr _ s
  | ldi dr offset9 =>
    rw [exec_ldi]
    exact answers_andThen (stallsOnly_memRead _ s) fun p t hptr => (memRead_ok hptr).1.cfg ▸ answers_loadInto dr p t
  | sti sr offset9 => exact answers_andThen (stallsOnly_memRead _ s) fun _ _ _ => answers_next _ _
  | trap v => exact answers_execTrap v s
  | addReg | addImm | andReg | andImm | not | lea | br | jmp | jsr | jsrr | st | str | rti | res =>
    exact answers_next _ _

theorem answers_step (hs : s.status = .running) : Answers s.cfg.inputEnd (step s) := by
  cases hdue : terminationDue s with
  | true => exact step_of_due hs hdue ▸ answers_next _ _
  | false =>
    rw [step_of_not_due hs hdue]
    exact answers_andThen (stallsOnly_memRead s.pc s) fun w t hfetch =>
      (memRead_ok hfetch).1.cfg ▸ answers_exec (decode w) t.advancePc

/-- Settles O45: a Running state answers, under Fail with a next state, and a terminal one answers runEnded. -/
theorem stepAnswersUnlessInputStalls : Obligations.StepAnswersUnlessInputStalls := by
  refine fun s => ⟨fun hs hfail => ?_, fun hs _ => ?_, step_of_terminal⟩
  · obtain hnext | ⟨hstall, -⟩ := answers_step hs
    · exact hnext
    · rw [hfail] at hstall
      cases hstall
  · exact (answers_step hs).imp_right And.right

/-! ### Errors -/

/-- What an error finds as the fetch and the pre-increment left it: PC, COND, the registers, and memory but for the
keyboard words. -/
structure Unmoved (s t : State) : Prop where
  pc : t.pc = s.pc
  cond : t.cond = s.cond
  regs : t.regs = s.regs
  word : ∀ a, a ≠ s.cfg.kbsrAddr → a ≠ s.cfg.kbdrAddr → t.word a = s.word a

theorem Unmoved.refl (s : State) : Unmoved s s := ⟨rfl, rfl, rfl, fun _ _ _ => rfl⟩

theorem Unmoved.raise (h : Unmoved s u) (e : Error) : Unmoved s (u.raise e) := ⟨h.pc, h.cond, h.regs, h.word⟩

theorem Scanned.unmoved (h : Scanned s u) : Unmoved s u := ⟨h.pc, h.cond, h.regs, h.word⟩

theorem running_ne_errored (hs : s.status = .running) (he : s.status = .errored e) : False := by
  rw [hs] at he
  cases he

/-- A load that ended in an error changed at most what its read did. -/
theorem loadInto_errored {dr : Reg} {a : Word} (hs : s.status = .running) (h : loadInto dr a s = .next t)
    (he : t.status = .errored e) : t = s.raise .keyboardInputError := by
  obtain hread | ⟨v, u, hread, hnext⟩ := andThen_eq_next h
  · exact (memRead_ended hread).2.2.2
  · cases hnext
    exact (running_ne_errored ((memRead_ok hread).1.status.trans hs) he).elim

/-- An instruction other than TRAP that ended in an error did nothing but the polls before it. -/
theorem exec_errored (hs : s.status = .running) (h : exec i s = .next t) (he : t.status = .errored e)
    (hi : ∀ v, i ≠ .trap v) : ∃ u d, Polled s u ∧ t = u.raise d := by
  have hcause : EndCause i (.errored e) :=
    he ▸ (keeps_exec i s t h).status.resolve_left fun hst => running_ne_errored hs (hst ▸ he)
  cases i with
  | ld dr offset9 => exact ⟨s, _, .refl s, loadInto_errored hs h he⟩
  | ldr dr baseR offset6 => exact ⟨s, _, .refl s, loadInto_errored hs h he⟩
  | ldi dr offset9 =>
    rw [exec_ldi] at h
    obtain hptr | ⟨p, u, hptr, hdata⟩ := andThen_eq_next h
    · exact ⟨s, _, .refl s, (memRead_ended hptr).2.2.2⟩
    · have hpoll := (memRead_ok hptr).1
      exact ⟨u, _, hpoll, loadInto_errored (hpoll.status.trans hs) hdata he⟩
  | sti sr offset9 =>
    obtain ⟨p, u, hptr, rfl⟩ | hraise := execSti_next h
    · exact (running_ne_errored ((memRead_ok hptr).1.status.trans hs) he).elim
    · exact ⟨s, _, .refl s, hraise⟩
  | trap v => exact absurd rfl (hi v)
  | rti | res =>
    change Host.Outcome.next (s.reservedOp _) = .next t at h
    unfold State.reservedOp at h
    split at h <;> cases h
    · exact ⟨s, _, .refl s, rfl⟩
    · exact (running_ne_errored hs he).elim
  | addReg | addImm | andReg | andImm | not | lea | br | jmp | jsr | jsrr | st | str =>
    cases e <;> simp [EndCause, Instr.readsMemory] at hcause

/-- A scan that ended in an error left the registers alone, whatever it emitted. -/
theorem scan_errored (hs : s.status = .running) (he : t.status = .errored e)
    (h : ∃ u, Scanned s u ∧ ((u.status = s.status ∧ t = u.flush) ∨ t = u.raise .keyboardInputError)) : Unmoved s t := by
  obtain ⟨u, hu, ⟨hst, rfl⟩ | rfl⟩ := h
  · exact (running_ne_errored (hst.trans hs) he).elim
  · exact hu.unmoved.raise _

/-- A TRAP that ended in an error changed R7 alone of the registers (R150). -/
theorem execTrap_errored {v : BitVec 8} (hs : s.status = .running) (h : execTrap v s = .next t)
    (he : t.status = .errored e) : Unmoved s.trapEntry t := by
  have hs' : s.trapEntry.status = .running := hs
  rcases execTrap_cases v s with ⟨-, c⟩ | ⟨-, c⟩ | ⟨-, c⟩ | ⟨-, c⟩ | ⟨-, c⟩ | ⟨-, c⟩ | ⟨-, c⟩ <;> rw [c] at h
  · obtain ⟨b, rest, -, rfl⟩ | rfl := trapGetc_next h
    · exact (running_ne_errored hs he).elim
    · exact (Unmoved.refl _).raise _
  · cases h
    exact (running_ne_errored hs he).elim
  · exact scan_errored hs' he (trapPuts_next h)
  · obtain ⟨b, rest, -, rfl⟩ | rfl := trapIn_next h
    · exact (running_ne_errored hs he).elim
    · exact ⟨rfl, rfl, rfl, fun _ _ _ => rfl⟩
  · exact scan_errored hs' he (trapPutsp_next h)
  · cases h
    cases he
  · cases h
    exact (Unmoved.refl _).raise _

/-- Settles O44: a TRAP by its routine after the entry, every other instruction by the polls before the error. -/
theorem errorsArePrecise : Obligations.ErrorsArePrecise := by
  intro i s t e hs h he
  by_cases htrap : ∃ v, i = .trap v
  · obtain ⟨v, rfl⟩ := htrap
    have hkept := execTrap_errored hs h he
    exact ⟨hkept.pc, hkept.cond, fun hi => absurd rfl (hi v), fun _ _ => hkept.regs, hkept.word⟩
  · have hi : ∀ v, i ≠ .trap v := fun v hv => htrap ⟨v, hv⟩
    obtain ⟨u, d, hpoll, rfl⟩ := exec_errored hs h he hi
    exact ⟨hpoll.pc, hpoll.cond, fun _ => ⟨hpoll.regs, hpoll.out, hpoll.flushed⟩, fun v hv => absurd hv (hi v),
      hpoll.word⟩

end Sys2Proof.Machine
end

