-- ==== Sys2Proof/Proofs/Keyboard.lean ====
section
/-! LAWS. The host byte and the keyboard poll by the input (R45, R193), and the obligation they settle. -/

namespace Sys2Proof.Machine

variable {s : State}

theorem inByte_cons {b : Byte} {rest : List Byte} (h : s.inp = b :: rest) :
    inByte s = .ok b { s with inp := rest } := by
  rw [inByte, h]

theorem inByte_fail (h : s.inp = []) (hmode : s.cfg.inputEnd = .fail) :
    inByte s = .ended (s.raise .keyboardInputError) := by
  rw [inByte, h, hmode]

theorem inByte_stall (h : s.inp = []) (hmode : s.cfg.inputEnd = .stall) : inByte s = .stuck .inputStall := by
  rw [inByte, h, hmode]

/-- A poll's byte changes memory and nothing else. -/
theorem latchKey_eq (s : State) (b : Byte) : s.latchKey b = { s with mem := (s.latchKey b).mem } := by
  unfold State.latchKey
  split <;> rfl

/-- Settles O12: the poll by the input, and the two words and the rest of memory after its byte. -/
theorem keyboardPollEffect : Obligations.KeyboardPollEffect := by
  refine fun s hcfg => ⟨fun b rest hinp => ?_, fun hinp hmode => ?_, fun hinp hmode => ?_⟩
  · have hne : s.cfg.kbsrAddr ≠ s.cfg.kbdrAddr := of_decide_eq_true hcfg
    have hkbsr := latchKey_kbsr { s with inp := rest } b hne
    have hkbdr := latchKey_kbdr { s with inp := rest } b hne
    refine ⟨({ s with inp := rest } : State).latchKey b, ?_, latchKey_eq _ b, fun hb hmode => ?_, fun hb hmode => ?_,
      fun hb => ?_, fun hb => ⟨?_, ?_⟩, fun a => latchKey_word_other { s with inp := rest } b⟩
    · rw [keyboardPoll, inByte_cons hinp, ok_bind]
    · rw [if_neg hb, hmode] at hkbsr
      exact hkbsr
    · rw [if_neg hb, hmode] at hkbsr
      exact hkbsr
    · exact hkbdr.trans (if_neg hb)
    · exact hkbsr.trans (if_pos hb)
    · exact hkbdr.trans (if_pos hb)
  · rw [keyboardPoll, inByte_fail hinp hmode, ended_bind, State.raise]
  · rw [keyboardPoll, inByte_stall hinp hmode, stuck_bind]

end Sys2Proof.Machine
end

