-- ==== Sys2Proof/Proofs/Transfers.lean ====
section
/-! LAWS. topCarry after the control transfers (R95), and what a store leaves for the next loads (R134 to R138), with
the obligations they settle. -/

namespace Sys2Proof.Machine

variable {s t : State}

/-- A handler's write of PC keeps topCarry but under StopAfterTop, which clears it. -/
theorem setPc_clears_topCarry (s : State) (target : Word) :
    (s.cfg.pcBound ≠ .stopAfterTop → (s.setPc target).topCarry = s.topCarry) ∧
    (s.cfg.pcBound = .stopAfterTop → (s.setPc target).topCarry = false) := by
  rw [setPc_topCarry]
  exact ⟨fun h => if_neg h, fun h => if_pos h⟩

/-- Settles O22: each transfer is a write of PC, but for a BR that is not taken, which changes nothing. -/
theorem controlTransfersClearTopCarry : Obligations.ControlTransfersClearTopCarry := by
  intro i s t hi h
  cases i with
  | br mask offset9 =>
    by_cases hmask : zext mask &&& s.cond = 0
    · rw [exec_br_not_taken offset9 hmask] at h
      cases h
      refine ⟨fun _ => rfl, fun _ => ⟨fun _ _ _ _ => rfl, fun m o hbr htaken => ?_, fun hbr => absurd rfl (hbr _ _)⟩⟩
      cases hbr
      exact absurd hmask htaken
    · rw [exec_br_taken offset9 hmask] at h
      cases h
      obtain ⟨hkeep, hclear⟩ := setPc_clears_topCarry s (pcRelative s offset9)
      refine ⟨hkeep, fun hmode => ⟨fun m o hbr hnot => ?_, fun _ _ _ _ => hclear hmode, fun _ => hclear hmode⟩⟩
      cases hbr
      exact absurd hnot hmask
  | jmp | jsr | jsrr =>
    cases h
    -- topCarry after a write of PC hangs on neither the target nor the link into R7
    obtain ⟨hkeep, hclear⟩ := setPc_clears_topCarry s 0
    exact ⟨hkeep, fun hmode => ⟨nofun, nofun, fun _ => hclear hmode⟩⟩
  | addReg | addImm | andReg | andImm | not | ld | ldi | ldr | lea | st | sti | str | trap | rti | res => cases hi

/-- A load from an address other than KBSR_ADDR gives DR and COND the word stored there. -/
theorem loadInto_stored (dr : Reg) {a v : Word} (ha : a ≠ s.cfg.kbsrAddr) (hv : s.mem.read a = v) :
    ∃ u, loadInto dr a s = .next u ∧ u.reg dr = v ∧ u.cond = flagOf v := by
  refine ⟨s.writeResult dr v, ?_, ?_, rfl⟩
  · rw [loadInto_plain ha, hv, writeResult_eq]
  · rw [reg_writeResult, if_pos rfl]

/-- LDI does so through a pointer word that is itself at another address (R131). -/
theorem exec_ldi_stored (dr : Reg) {offset9 : BitVec 9} {p v : Word} (hptr : pcRelative s offset9 ≠ s.cfg.kbsrAddr)
    (hp : s.word (pcRelative s offset9) = p) (hplain : p ≠ s.cfg.kbsrAddr) (hv : s.mem.read p = v) :
    ∃ u, exec (.ldi dr offset9) s = .next u ∧ u.reg dr = v ∧ u.cond = flagOf v := by
  rw [exec_ldi_of_ok (memRead_plain hptr), hp]
  exact loadInto_stored dr hplain hv

/-- Settles O30: the word stored is the one read back at the address, which the load finds again. -/
theorem storeThenLoadReturnsValue : Obligations.StoreThenLoadReturnsValue := by
  refine ⟨fun sr dr o1 o2 s t hst haddr hplain => ?_, fun sr dr o1 o2 s t hsti hptr1 hptr2 hptr hplain => ?_⟩
  · cases hst
    have hagain : pcRelative (s.memWrite (pcRelative s o1) (s.reg sr)).advancePc o2 = s.pc + sext o1 := haddr
    rw [exec_ld, hagain]
    exact loadInto_stored dr hplain ((read_write ..).trans (if_pos rfl))
  · obtain rfl : s.memWrite (s.mem.read (s.pc + sext o1)) (s.reg sr) = t := by
      rw [exec_sti_of_ok (memRead_plain hptr1)] at hsti
      exact Host.Outcome.next.inj hsti
    refine exec_ldi_stored dr (p := s.mem.read (s.pc + sext o1)) ?_ ?_ ?_ ?_
    · exact hptr2
    · exact hptr
    · exact hplain
    · exact (read_write ..).trans (if_pos rfl)

/-- A poll changes memory and input and nothing else. -/
theorem Polled.eq_update (h : Polled s t) : t = { s with mem := t.mem, inp := t.inp } := by
  cases s
  cases t
  obtain ⟨hregs, hpc, hcond, hcount, hstatus, hout, hflushed, hcarry, hcfg, -, -, -⟩ := h
  simp only at hregs hpc hcond hcount hstatus hout hflushed hcarry hcfg
  simp only [hregs, hpc, hcond, hcount, hstatus, hout, hflushed, hcarry, hcfg]

/-- Settles O52: each store as a write of one word, for STI after the pointer read. -/
theorem storesChangeOneWord : Obligations.StoresChangeOneWord := by
  refine ⟨fun sr offset9 s t h => ?_, fun sr baseR offset6 s t h => ?_, fun sr offset9 s t u p hptr h => ?_⟩
  · cases h
    exact ⟨rfl, (read_write ..).trans (if_pos rfl), fun a ha => (read_write ..).trans (if_neg ha)⟩
  · cases h
    exact ⟨rfl, (read_write ..).trans (if_pos rfl), fun a ha => (read_write ..).trans (if_neg ha)⟩
  · rw [exec_sti_of_ok hptr] at h
    cases h
    refine ⟨?_, (read_write ..).trans (if_pos rfl), fun a ha => (read_write ..).trans (if_neg ha)⟩
    rw [(memRead_ok hptr).1.eq_update]

end Sys2Proof.Machine
end

