-- ==== Sys2Proof/Proofs/Traps.lean ====
section
/-! LAWS. TRAP by vector (R151): the routine of each vector after the entry, GETC, IN and HALT, an unknown vector, and
the two reserved opcodes, with the obligations they settle. -/

namespace Sys2Proof.Machine

section Dispatch

variable (s : State)

theorem exec_trap_getc : exec (.trap vectorGetc) s = trapGetc s.trapEntry := by
  change trapRoutine vectorGetc s.trapEntry = _
  rw [trapRoutine, if_pos rfl]

theorem exec_trap_puts : exec (.trap vectorPuts) s = trapPuts s.trapEntry := by
  change trapRoutine vectorPuts s.trapEntry = _
  rw [trapRoutine, if_neg (by decide), if_neg (by decide), if_pos rfl]

theorem exec_trap_in : exec (.trap vectorIn) s = trapIn s.trapEntry := by
  change trapRoutine vectorIn s.trapEntry = _
  rw [trapRoutine, if_neg (by decide), if_neg (by decide), if_neg (by decide), if_pos rfl]

theorem exec_trap_putsp : exec (.trap vectorPutsp) s = trapPutsp s.trapEntry := by
  change trapRoutine vectorPutsp s.trapEntry = _
  rw [trapRoutine, if_neg (by decide), if_neg (by decide), if_neg (by decide), if_neg (by decide), if_pos rfl]

theorem exec_trap_halt : exec (.trap vectorHalt) s = trapHalt s.trapEntry := by
  change trapRoutine vectorHalt s.trapEntry = _
  rw [trapRoutine, if_neg (by decide), if_neg (by decide), if_neg (by decide), if_neg (by decide), if_neg (by decide),
    if_pos rfl]

/-- R158: a vector that names no routine. -/
theorem exec_trap_unknown {v : BitVec 8} (hv : knownVector v = false) :
    exec (.trap v) s = trapUnknown v s.trapEntry := by
  have hnone : ∀ w, knownVector w = true → v ≠ w := by
    rintro w hw rfl
    rw [hv] at hw
    cases hw
  obtain ⟨h, -⟩ | ⟨h, -⟩ | ⟨h, -⟩ | ⟨h, -⟩ | ⟨h, -⟩ | ⟨h, -⟩ | ⟨-, hexec⟩ := execTrap_cases v s
  · exact absurd h (hnone _ (by decide))
  · exact absurd h (hnone _ (by decide))
  · exact absurd h (hnone _ (by decide))
  · exact absurd h (hnone _ (by decide))
  · exact absurd h (hnone _ (by decide))
  · exact absurd h (hnone _ (by decide))
  · exact hexec

/-- Emitting bytes and flushing changes the output and nothing else, and leaves nothing unflushed (R194). -/
theorem flush_outBytes (bs : List Byte) :
    (s.outBytes bs).flush = { s with out := s.out ++ bs, flushed := s.out.length + bs.length } := by
  rw [State.flush, outBytes_out, List.length_append, State.outBytes]

end Dispatch

/-- Settles O31: the decoder's TRAP arm, and the error raised after the entry. -/
theorem unknownTrapVector : Obligations.UnknownTrapVector :=
  ⟨fun _ hop => decode_of_trap (opcodeOf_of_nibble hop), fun _ s hv => exec_trap_unknown s hv⟩

/-- Settles O32: the routine of GETC after the entry, by the input. -/
theorem trapGetcReadsOneByte : Obligations.TrapGetcReadsOneByte := by
  refine fun s => ⟨fun b rest hinp => ?_, fun hinp hmode => ?_, fun hinp hmode => ?_⟩
  · rw [exec_trap_getc, trapGetc, inByte_cons (s := s.trapEntry) hinp]
    rfl
  · rw [exec_trap_getc, trapGetc, inByte_fail (s := s.trapEntry) hinp hmode]
    rfl
  · rw [exec_trap_getc, trapGetc, inByte_stall (s := s.trapEntry) hinp hmode, stuck_andThen]

/-- Settles O35: the routine of IN after the entry, by the input it finds after the prompt. -/
theorem trapInPromptsReadsEchoes : Obligations.TrapInPromptsReadsEchoes := by
  refine fun s => ⟨fun b rest hinp => ?_, fun hinp hmode => ?_, fun hinp hmode => ?_⟩
  · rw [exec_trap_in, trapIn, inByte_cons (s := (s.trapEntry.outBytes _).flush) hinp, ok_andThen, flush_outByte,
      flush_outBytes, List.length_append]
    rfl
  · rw [exec_trap_in, trapIn, inByte_fail (s := (s.trapEntry.outBytes _).flush) hinp hmode, ended_andThen,
      flush_outBytes]
    rfl
  · rw [exec_trap_in, trapIn, inByte_stall (s := (s.trapEntry.outBytes _).flush) hinp hmode, stuck_andThen]

/-- Settles O38: the routine of HALT after the entry. -/
theorem trapHaltEndsTheRun : Obligations.TrapHaltEndsTheRun := by
  intro s
  rw [exec_trap_halt, trapHalt, flush_outBytes]
  rfl

theorem reservedOp_of_fault {s : State} (h : s.cfg.reservedOp = .fault) (op : BitVec 4) :
    s.reservedOp op = s.raise (.illegalOpcode op) := by
  rw [State.reservedOp, h]

theorem reservedOp_of_noOp {s : State} (h : s.cfg.reservedOp = .noOp) (op : BitVec 4) : s.reservedOp op = s := by
  rw [State.reservedOp, h]

/-- Settles O39: the decoder's two arms, and the opcode's error or nothing by the policy. -/
theorem reservedOpcodes : Obligations.ReservedOpcodes :=
  ⟨fun _ hop => decode_of_rti (opcodeOf_of_nibble hop), fun _ hop => decode_of_res (opcodeOf_of_nibble hop),
    fun _ => ⟨fun h => ⟨congrArg _ (reservedOp_of_fault h _), congrArg _ (reservedOp_of_fault h _)⟩,
      fun h => ⟨congrArg _ (reservedOp_of_noOp h _), congrArg _ (reservedOp_of_noOp h _)⟩⟩⟩

end Sys2Proof.Machine
end

