-- ==== Sys2Proof/Proofs/Strings.lean ====
section
/-! LAWS. The strings of PUTS and PUTSP (R154, R156): the scan as the spec's loop, with no bound of its own, what the
loop emits of a string away from KBSR_ADDR, and the obligations they settle. -/

namespace Sys2Proof.Machine

/-- The scan under the model's bound, which its equation does not show. -/
def stringLoop (emit : Word → State → State) (a : Word) (s : State) : Access Unit := scan emit (scanBound s) a s

/-- The spec's loop (R154, R156): the bound is above what the scan can read, before a word and after it. -/
theorem stringLoop_eq {emit : Word → State → State} (he : EmitsOnly emit) (a : Word) (s : State) :
    stringLoop emit a s = (memRead a s).bind fun w t =>
      if w = 0 then .ok () t else stringLoop emit (a + 1) (emit w t) := by
  have hbound := scanNeed_lt_scanBound a s
  rw [stringLoop]
  cases hn : scanBound s with
  | zero => omega
  | succ n =>
    rw [scan]
    cases hread : memRead a s with
    | ended t => rfl
    | stuck r => rfl
    | ok w t =>
      rw [ok_bind, ok_bind]
      split
      · rfl
      · have hstep := scanNeed_step he hread
        exact scan_bound_irrelevant he (by omega) (scanNeed_lt_scanBound _ _)

/-- PUTS (R154). -/
theorem exec_trap_puts_eq_loop (s : State) : exec (.trap vectorPuts) s =
    (stringLoop emitChar (s.reg 0) s.trapEntry).andThen fun _ t => .next t.flush := by
  have hr0 : s.trapEntry.reg 0 = s.reg 0 := (reg_trapEntry s 0).trans (if_neg (by decide))
  rw [exec_trap_puts, trapPuts, hr0]
  rfl

/-- PUTSP (R156). -/
theorem exec_trap_putsp_eq_loop (s : State) : exec (.trap vectorPutsp) s =
    (stringLoop emitPacked (s.reg 0) s.trapEntry).andThen fun _ t => .next t.flush := by
  have hr0 : s.trapEntry.reg 0 = s.reg 0 := (reg_trapEntry s 0).trans (if_neg (by decide))
  rw [exec_trap_putsp, trapPutsp, hr0]
  rfl

/-- The bytes PUTSP emits of a word (R156). -/
def packedBytes (w : Word) : List Byte := lowByte w :: if highByte w ≠ 0 then [highByte w] else []

theorem emitPacked_eq (w : Word) (s : State) : emitPacked w s = s.outBytes (packedBytes w) := by
  unfold emitPacked packedBytes
  split
  · rw [State.outByte, outByte_out, List.append_assoc]
    rfl
  · rfl

/-- Settles O37: the scan as the loop, which runs from R0 after the entry and ends in one flush. -/
theorem putsAndPutspRunTheLoop : Obligations.PutsAndPutspRunTheLoop := by
  refine ⟨⟨stringLoop emitChar, stringLoop_eq emitChar_emits, exec_trap_puts_eq_loop⟩,
    ⟨stringLoop emitPacked, fun a s => ?_, exec_trap_putsp_eq_loop⟩⟩
  rw [stringLoop_eq emitPacked_emits]
  simp only [emitPacked_eq]
  rfl

/-! ### A string away from KBSR_ADDR -/

section OnString

variable {emit : Word → State → State} {bytes : Word → List Byte} (he : ∀ w s, emit w s = s.outBytes (bytes w))

include he

/-- The loop at an address whose read does not poll (R44). -/
theorem stringLoop_plain {a : Word} {s : State} (ha : a ≠ s.cfg.kbsrAddr) : stringLoop emit a s =
    if s.word a = 0 then .ok () s else stringLoop emit (a + 1) (s.outBytes (bytes (s.word a))) := by
  rw [stringLoop_eq ⟨fun w s => ⟨bytes w, he w s⟩⟩, memRead_plain ha, ok_bind, he]

/-- The loop on a string emits its words' bytes and changes nothing else. -/
theorem stringLoop_string {ws : List Word} {a : Word} {s : State}
    (hws : ∀ (k : Nat) (h : k < ws.length), s.mem.read (a + BitVec.ofNat 16 k) = ws[k] ∧ ws[k] ≠ 0)
    (hzero : s.mem.read (a + BitVec.ofNat 16 ws.length) = 0)
    (hplain : ∀ k ≤ ws.length, a + BitVec.ofNat 16 k ≠ s.cfg.kbsrAddr) :
    stringLoop emit a s = .ok () (s.outBytes (ws.flatMap bytes)) := by
  induction ws generalizing a s with
  | nil =>
    have hword : s.word a = 0 := by simpa [State.word] using hzero
    have ha : a ≠ s.cfg.kbsrAddr := by simpa using hplain 0 (Nat.le_refl _)
    rw [stringLoop_plain he ha, if_pos hword]
    simp [State.outBytes]
  | cons w ws ih =>
    have ha : a ≠ s.cfg.kbsrAddr := by simpa using hplain 0 (Nat.zero_le _)
    obtain ⟨hword, hne⟩ : s.word a = w ∧ w ≠ 0 := by simpa [State.word] using hws 0 (Nat.succ_pos _)
    rw [stringLoop_plain he ha, hword, if_neg hne, ih]
    · simp [State.outBytes]
    · intro k hk
      rw [← add_ofNat_succ]
      exact hws (k + 1) (Nat.succ_lt_succ hk)
    · rw [← add_ofNat_succ]
      exact hzero
    · intro k hk
      rw [← add_ofNat_succ]
      exact hplain (k + 1) (Nat.succ_le_succ hk)

end OnString

/-- Settles O34: the loop on the string after the entry, one byte a word, and the flush. -/
theorem trapPutsPrintsString : Obligations.TrapPutsPrintsString := by
  intro s ws hws hzero hplain
  have hloop := stringLoop_string (emit := emitChar) (bytes := fun w => [lowByte w]) (fun _ _ => rfl)
    (s := s.trapEntry) hws hzero hplain
  rw [exec_trap_puts_eq_loop, hloop, ok_andThen, flush_outBytes, ← List.map_eq_flatMap, List.length_map]
  rfl

/-- Settles O36: the loop on the string after the entry, one or two bytes a word, and the flush. -/
theorem trapPutspPrintsPackedString : Obligations.TrapPutspPrintsPackedString := by
  rintro s ws _ hws hzero hplain rfl
  have hloop := stringLoop_string emitPacked_eq (s := s.trapEntry) hws hzero hplain
  rw [exec_trap_putsp_eq_loop, hloop, ok_andThen, flush_outBytes]
  rfl

end Sys2Proof.Machine
end

