-- ==== Sys2Proof/Proofs/Unread.lean ====
section
/-! LAWS. What the handlers do not read: COND (but for BR), COUNT and PC_BOUND_MODE (but for a write of PC). A state
with these three rewritten runs as the state itself, each operation said once, and the obligations it settles. -/

namespace Sys2Proof.Machine

/-- A state with COND, COUNT and PC_BOUND_MODE rewritten. -/
def State.recast (c n : Word → Word) (m : PcBoundMode → PcBoundMode) (s : State) : State :=
  { s with cond := c s.cond, count := n s.count, cfg := { s.cfg with pcBound := m s.cfg.pcBound } }

/-- An access with each state it leads to rewritten. -/
def Access.map {α : Type} (f : State → State) : Access α → Access α
  | .ok v t => .ok v (f t)
  | .ended t => .ended (f t)
  | .stuck r => .stuck r

/-- An answer with its next state rewritten. -/
def mapNext (f : State → State) : Outcome State Fault Refusal → Outcome State Fault Refusal
  | .next t => .next (f t)
  | .fault r => .fault r
  | .refused r => .refused r

theorem bind_map {α β : Type} {f : State → State} {x : Access α} {g : α → State → Access β}
    (hg : ∀ v t, g v (f t) = (g v t).map f) : (x.map f).bind g = (x.bind g).map f := by
  cases x with
  | ok v t => exact hg v t
  | ended t => rfl
  | stuck r => rfl

theorem andThen_map {α : Type} {f : State → State} {x : Access α} {k : α → State → Outcome State Fault Refusal}
    (hk : ∀ v t, x = .ok v t → k v (f t) = mapNext f (k v t)) : (x.map f).andThen k = mapNext f (x.andThen k) := by
  cases x with
  | ok v t => exact hk v t rfl
  | ended t => rfl
  | stuck r => rfl

section Recast

variable (c n : Word → Word) (m : PcBoundMode → PcBoundMode) (s : State)

theorem inByte_recast : inByte (s.recast c n m) = (inByte s).map (State.recast c n m) := by
  obtain ⟨b, rest, hinp, hread⟩ | ⟨hinp, hmode, hread⟩ | ⟨hinp, hmode, hread⟩ := inByte_cases s <;> rw [hread]
  · exact inByte_cons (s := s.recast c n m) hinp
  · exact inByte_fail (s := s.recast c n m) hinp hmode
  · exact inByte_stall (s := s.recast c n m) hinp hmode

theorem latchKey_recast (b : Byte) : (s.recast c n m).latchKey b = (s.latchKey b).recast c n m := by
  unfold State.latchKey
  split <;> rfl

theorem memRead_recast (a : Word) : memRead a (s.recast c n m) = (memRead a s).map (State.recast c n m) := by
  by_cases ha : a = s.cfg.kbsrAddr
  · have hpoll : keyboardPoll (s.recast c n m) = (keyboardPoll s).map (State.recast c n m) := by
      rw [keyboardPoll, inByte_recast]
      exact bind_map fun b t => congrArg (Access.ok ()) (latchKey_recast c n m t b)
    rw [memRead_kbsr (s := s.recast c n m) ha, memRead_kbsr ha, hpoll]
    exact bind_map fun _ _ => rfl
  · rw [memRead_plain (s := s.recast c n m) ha, memRead_plain ha]
    rfl

theorem scan_recast {emit : Word → State → State} (he : ∀ w t, emit w (t.recast c n m) = (emit w t).recast c n m) :
    ∀ (k : Nat) (a : Word) (s : State),
      scan emit k a (s.recast c n m) = (scan emit k a s).map (State.recast c n m) := by
  intro k
  induction k with
  | zero => exact fun _ _ => rfl
  | succ k ih =>
    intro a s
    rw [scan, scan, memRead_recast]
    refine bind_map fun w t => ?_
    split
    · rfl
    · rw [he, ih]

theorem emitPacked_recast (w : Word) : emitPacked w (s.recast c n m) = (emitPacked w s).recast c n m := by
  unfold emitPacked
  split <;> rfl

theorem reservedOp_recast (op : BitVec 4) : (s.recast c n m).reservedOp op = (s.reservedOp op).recast c n m := by
  cases hpolicy : s.cfg.reservedOp with
  | fault => rw [reservedOp_of_fault hpolicy, reservedOp_of_fault (s := s.recast c n m) hpolicy]; rfl
  | noOp => rw [reservedOp_of_noOp hpolicy, reservedOp_of_noOp (s := s.recast c n m) hpolicy]

variable {c n m s}

/-- A write of PC reads PC_BOUND_MODE to say whether topCarry is cleared, which does not show where it is not set. -/
theorem setPc_recast (hm : s.topCarry = false ∨ ∀ x, m x = x) (target : Word) :
    (s.recast c n m).setPc target = (s.setPc target).recast c n m := by
  have hcarry : ((s.recast c n m).setPc target).topCarry = (s.setPc target).topCarry := by
    rw [setPc_topCarry, setPc_topCarry]
    obtain h | h := hm
    · change (if _ then false else s.topCarry) = _
      rw [h, ite_self, ite_self]
    · change (if m s.cfg.pcBound = _ then false else s.topCarry) = _
      rw [h]
  change ({ s.recast c n m with pc := target, topCarry := ((s.recast c n m).setPc target).topCarry } : State) = _
  rw [hcarry]
  rfl

/-- Setting COND does not read it, but a rewriting of COND shows after it. -/
theorem writeResult_recast (hc : ∀ x, c x = x) (dr : Reg) (v : Word) :
    (s.recast c n m).writeResult dr v = (s.writeResult dr v).recast c n m := by
  change _ = ({ (s.recast c n m).writeResult dr v with cond := c (flagOf v) } : State)
  rw [hc]
  rfl

theorem loadInto_recast (hc : ∀ x, c x = x) (dr : Reg) (a : Word) (s : State) :
    loadInto dr a (s.recast c n m) = mapNext (State.recast c n m) (loadInto dr a s) := by
  rw [loadInto, memRead_recast]
  exact andThen_map fun v t _ => congrArg Host.Outcome.next (writeResult_recast hc dr v)

theorem trapGetc_recast (s : State) : trapGetc (s.recast c n m) = mapNext (State.recast c n m) (trapGetc s) := by
  rw [trapGetc, inByte_recast]
  exact andThen_map fun _ _ _ => rfl

theorem trapPuts_recast (s : State) : trapPuts (s.recast c n m) = mapNext (State.recast c n m) (trapPuts s) := by
  change (scan emitChar (scanBound s) (s.reg 0) (s.recast c n m)).andThen _ = _
  rw [scan_recast c n m (emit := emitChar) fun _ _ => rfl]
  exact andThen_map fun _ _ _ => rfl

theorem trapPutsp_recast (s : State) : trapPutsp (s.recast c n m) = mapNext (State.recast c n m) (trapPutsp s) := by
  change (scan emitPacked (scanBound s) (s.reg 0) (s.recast c n m)).andThen _ = _
  rw [scan_recast c n m fun w t => emitPacked_recast c n m t w]
  exact andThen_map fun _ _ _ => rfl

theorem trapIn_recast (hc : ∀ x, c x = x) (s : State) :
    trapIn (s.recast c n m) = mapNext (State.recast c n m) (trapIn s) := by
  change (inByte ((s.outBytes s.cfg.inPrompt).flush.recast c n m)).andThen _ = _
  rw [inByte_recast]
  refine andThen_map fun b t _ => congrArg Host.Outcome.next ?_
  exact writeResult_recast (s := (t.outByte b).flush) hc 0 (zext b)

/-- Each routine runs alike after the entry; of the seven only IN sets a flag. -/
theorem execTrap_recast {v : BitVec 8} (hc : (Instr.trap v).writesCond = true → ∀ x, c x = x) (s : State) :
    execTrap v (s.recast c n m) = mapNext (State.recast c n m) (execTrap v s) := by
  rcases execTrap_cases v s with ⟨rfl, e⟩ | ⟨rfl, e⟩ | ⟨rfl, e⟩ | ⟨rfl, e⟩ | ⟨rfl, e⟩ | ⟨rfl, e⟩ | ⟨hv, e⟩ <;> rw [e]
  · exact (exec_trap_getc (s.recast c n m)).trans (trapGetc_recast s.trapEntry)
  · exact exec_trap_out (s.recast c n m)
  · exact (exec_trap_puts (s.recast c n m)).trans (trapPuts_recast s.trapEntry)
  · exact (exec_trap_in (s.recast c n m)).trans (trapIn_recast (hc rfl) s.trapEntry)
  · exact (exec_trap_putsp (s.recast c n m)).trans (trapPutsp_recast s.trapEntry)
  · exact exec_trap_halt (s.recast c n m)
  · exact exec_trap_unknown (s.recast c n m) (knownVector_eq_false hv)

/-- A handler that does not read what is rewritten runs alike. -/
theorem exec_recast (i : Instr) (hc : i.readsCond = true ∨ i.writesCond = true → ∀ x, c x = x)
    (hm : i.writesPc = true → s.topCarry = false ∨ ∀ x, m x = x) :
    exec i (s.recast c n m) = mapNext (State.recast c n m) (exec i s) := by
  cases i with
  | addReg dr sr1 sr2 => exact congrArg Host.Outcome.next (writeResult_recast (hc (.inr rfl)) dr _)
  | addImm dr sr1 imm5 => exact congrArg Host.Outcome.next (writeResult_recast (hc (.inr rfl)) dr _)
  | andReg dr sr1 sr2 => exact congrArg Host.Outcome.next (writeResult_recast (hc (.inr rfl)) dr _)
  | andImm dr sr1 imm5 => exact congrArg Host.Outcome.next (writeResult_recast (hc (.inr rfl)) dr _)
  | not dr sr => exact congrArg Host.Outcome.next (writeResult_recast (hc (.inr rfl)) dr _)
  | lea dr offset9 => exact congrArg Host.Outcome.next (writeResult_recast (hc (.inr rfl)) dr _)
  | br mask offset9 =>
    have htaken : branchTaken mask (s.recast c n m) = branchTaken mask s := by
      change decide (zext mask &&& c s.cond ≠ 0) = _
      rw [hc (.inl rfl), branchTaken]
    rw [exec_br, exec_br, htaken]
    split
    · exact congrArg Host.Outcome.next (setPc_recast (hm rfl) _)
    · rfl
  | jmp baseR => exact congrArg Host.Outcome.next (setPc_recast (hm rfl) _)
  | jsr offset11 => exact congrArg Host.Outcome.next (setPc_recast (s := s.setReg 7 s.pc) (hm rfl) _)
  | jsrr baseR => exact congrArg Host.Outcome.next (setPc_recast (s := s.setReg 7 s.pc) (hm rfl) _)
  | ld dr offset9 => exact loadInto_recast (hc (.inr rfl)) dr _ s
  | ldr dr baseR offset6 => exact loadInto_recast (hc (.inr rfl)) dr _ s
  | ldi dr offset9 =>
    rw [exec_ldi, exec_ldi]
    change (memRead (pcRelative s offset9) _).andThen _ = _
    rw [memRead_recast]
    exact andThen_map fun p t _ => loadInto_recast (hc (.inr rfl)) dr p t
  | st sr offset9 => rfl
  | str sr baseR offset6 => rfl
  | sti sr offset9 =>
    rw [exec_sti, exec_sti]
    change (memRead (pcRelative s offset9) _).andThen _ = _
    rw [memRead_recast]
    exact andThen_map fun _ _ _ => rfl
  | trap v => exact execTrap_recast (fun h => hc (.inr h)) s
  | rti => exact congrArg Host.Outcome.next (reservedOp_recast c n m s _)
  | res => exact congrArg Host.Outcome.next (reservedOp_recast c n m s _)

end Recast

/-! ### The reading of the memory bound -/

/-- The three modes have one check and one pre-increment where pc is not 0xFFFF and topCarry is false (R91). -/
theorem terminationDue_off_the_top {s : State} (hpc : s.pc ≠ 0xFFFF) (hcarry : s.topCarry = false) :
    terminationDue s = false := by
  cases hmode : s.cfg.pcBound with
  | wrap => exact terminationDue_of_wrap hmode
  | stopAtTop => exact (terminationDue_of_stopAtTop hmode).trans (decide_eq_false hpc)
  | stopAfterTop => exact (terminationDue_of_stopAfterTop hmode).trans hcarry

theorem topCarry_advancePc_off_the_top {s : State} (hpc : s.pc ≠ 0xFFFF) (hcarry : s.topCarry = false) :
    s.advancePc.topCarry = false := by
  rw [advancePc_topCarry, hcarry, decide_eq_false hpc, ite_self]

theorem advancePc_recast_off_the_top {c n : Word → Word} {m : PcBoundMode → PcBoundMode} {s : State}
    (hpc : s.pc ≠ 0xFFFF) (hcarry : s.topCarry = false) :
    (s.recast c n m).advancePc = s.advancePc.recast c n m := by
  change ({ s.advancePc.recast c n m with topCarry := (s.recast c n m).advancePc.topCarry } : State) = _
  rw [topCarry_advancePc_off_the_top (s := s.recast c n m) hpc hcarry, ← topCarry_advancePc_off_the_top hpc hcarry]
  rfl

theorem withPcBound_eq_recast (m : PcBoundMode) : (State.withPcBound · m) = State.recast id id fun _ => m := rfl

/-- A step off the top under one reading of the bound is the step under another. -/
theorem step_withPcBound {s : State} (m : PcBoundMode) (hpc : s.pc ≠ 0xFFFF) (hcarry : s.topCarry = false) :
    step (s.withPcBound m) = mapNext (State.withPcBound · m) (step s) := by
  by_cases hs : s.status = .running
  · rw [step_of_not_due hs (terminationDue_off_the_top hpc hcarry),
      step_of_not_due (s := s.withPcBound m) hs (terminationDue_off_the_top hpc hcarry), withPcBound_eq_recast]
    change (memRead s.pc (s.recast id id fun _ => m)).andThen _ = _
    rw [memRead_recast]
    refine andThen_map fun w t hfetch => ?_
    have hpoll := (memRead_ok hfetch).1
    have hpct : t.pc ≠ 0xFFFF := hpoll.pc ▸ hpc
    have hcarryt : t.topCarry = false := hpoll.topCarry.trans hcarry
    rw [advancePc_recast_off_the_top hpct hcarryt]
    exact exec_recast (decode w) (fun _ _ => rfl) fun _ => .inl (topCarry_advancePc_off_the_top hpct hcarryt)
  · rw [step_of_terminal hs, step_of_terminal (s := s.withPcBound m) hs]
    rfl

/-- Settles O42: the step under the other reading, by what the step itself answers. -/
theorem boundModesAgreeOffTheTop : Obligations.BoundModesAgreeOffTheTop := by
  intro s m hpc hcarry
  have hstep := step_withPcBound m hpc hcarry
  refine ⟨fun t h => ?_, fun r h => ?_⟩
  · rw [hstep, h, mapNext]
  · rw [hstep, h, mapNext]

/-! ### COND and COUNT -/

/-- A result written to COND after an access hides what COND was; an access that ends the cycle leaves it. -/
theorem andThen_recast_cond {α : Type} {c : Word} {s t : State} {x : Access α}
    {k : α → State → Outcome State Fault Refusal} (hx : ∀ u, x = .ended u → u.cond = s.cond)
    (hk : ∀ v u, k v (u.recast (fun _ => c) id id) = k v u) (h : x.andThen k = .next t) :
    ∃ d, (x.map (State.recast (fun _ => c) id id)).andThen k = .next { t with cond := d } ∧
      (d = t.cond ∨ (d = c ∧ t.cond = s.cond)) := by
  cases x with
  | ok v u => exact ⟨t.cond, (hk v u).trans h, .inl rfl⟩
  | ended u =>
    cases h
    exact ⟨c, rfl, .inr ⟨rfl, hx t rfl⟩⟩
  | stuck r => cases h

/-- An instruction but BR with COND rewritten first: one that sets no flag carries COND along, and one that does sets
it alike, unless an access ended its cycle before that. -/
theorem exec_recast_cond {i : Instr} {s t : State} (c : Word) (hreads : i.readsCond = false) (h : exec i s = .next t) :
    ∃ d, exec i (s.recast (fun _ => c) id id) = .next { t with cond := d } ∧
      (d = t.cond ∨ (d = c ∧ t.cond = s.cond)) := by
  have hended : ∀ a u, memRead a s = .ended u → u.cond = s.cond := fun a u hread => by
    rw [(memRead_ended hread).2.2.2, raise_cond]
  cases hwrites : i.writesCond with
  | false =>
    have hexec := exec_recast (c := fun _ => c) (n := id) (m := id) (s := s) i
      (fun hc => absurd hc (by simp [hreads, hwrites])) fun _ => .inr fun _ => rfl
    rw [h] at hexec
    exact ⟨c, hexec, .inr ⟨rfl, (keeps_exec i s t h).cond hwrites⟩⟩
  | true =>
    cases i with
    | addReg | addImm | andReg | andImm | not | lea =>
      cases h
      exact ⟨_, rfl, .inl rfl⟩
    | ld dr offset9 =>
      change ∃ d, (memRead (pcRelative s offset9) _).andThen _ = _ ∧ _
      rw [memRead_recast]
      exact andThen_recast_cond (hended _) (fun _ _ => rfl) h
    | ldr dr baseR offset6 =>
      change ∃ d, (memRead (basePlusOffset s baseR offset6) _).andThen _ = _ ∧ _
      rw [memRead_recast]
      exact andThen_recast_cond (hended _) (fun _ _ => rfl) h
    | ldi dr offset9 =>
      change ∃ d, ((memRead (pcRelative s offset9) _).bind memRead).andThen _ = _ ∧ _
      rw [memRead_recast, bind_map (g := memRead) fun p u => memRead_recast (fun _ => c) id id u p]
      refine andThen_recast_cond (fun u hread => ?_) (fun _ _ => rfl) h
      obtain hptr | ⟨p, u', hptr, hdata⟩ := bind_eq_ended hread
      · exact hended _ _ hptr
      · rw [(memRead_ended hdata).2.2.2, raise_cond, (memRead_ok hptr).1.cond]
    | trap v =>
      obtain rfl : v = vectorIn := of_decide_eq_true hwrites
      rw [exec_trap_in] at h ⊢
      change ∃ d, (inByte ((s.trapEntry.outBytes s.cfg.inPrompt).flush.recast (fun _ => c) id id)).andThen _ = _ ∧ _
      rw [inByte_recast]
      refine andThen_recast_cond (fun u hread => ?_) (fun _ _ => rfl) h
      rw [(inByte_ended hread).2.2]
      rfl
    | br | jmp | jsr | jsrr | st | sti | str | rti | res => cases hwrites

/-- Settles O48: COND by `exec_recast_cond`, and COUNT as a rewriting that no handler sees. -/
theorem onlyBranchReadsCondAndNothingReadsCount : Obligations.OnlyBranchReadsCondAndNothingReadsCount := by
  refine ⟨fun i s t c hreads h => exec_recast_cond c hreads h, fun i s t c h => ?_⟩
  have hexec := exec_recast (c := id) (n := fun _ => c) (m := id) (s := s) i (fun _ _ => rfl) fun _ => .inr fun _ => rfl
  rw [h] at hexec
  exact hexec

end Sys2Proof.Machine
end

