-- ==== Sys2Proof/Proofs/Launch.lean ====
section
/-! LAWS. Launches (R53, R210, R211) and what the host sees of their ends (R195), and the numbers of slots, flags and
vectors (R21, R27, R151), with the obligations they settle. -/

namespace Sys2Proof.Machine

/-! ### Launches -/

theorem reg_start (cfg : Config) (startPc : Option Word) (inp : List Byte) (origin : Word) (mem : Memory) (r : Reg) :
    (State.start cfg startPc inp origin mem).reg r = 0 := by
  change (Vector.replicate 8 (0 : Word)).get r = 0
  rw [Vector.get_eq_getElem, Vector.getElem_replicate]

/-- Settles O57: an image that loads starts the run, whatever paths follow it. -/
theorem launchedStateValues : Obligations.LaunchedStateValues := by
  intro cfg startPc bytes rest inp origin mem hload
  refine ⟨_, launch_of_load hload, reg_start cfg startPc inp origin mem, rfl, rfl, rfl, rfl, rfl, rfl, rfl, rfl, rfl,
    ?_, ?_⟩
  · rintro rfl
    rfl
  · rintro a rfl
    rfl

/-- An odd number of bytes is no list of words (R53). -/
theorem imageWords_of_odd : ∀ {bytes : List Byte}, bytes.length % 2 = 1 → imageWords bytes = none
  | [], h => nomatch h
  | [_], _ => rfl
  | _ :: _ :: rest, h => by
    rw [List.length_cons, List.length_cons] at h
    rw [imageWords, imageWords_of_odd (by omega)]

theorem loadImage_of_odd {bytes : List Byte} (h : bytes.length % 2 = 1) : loadImage bytes = .error .badFile := by
  rw [loadImage, imageWords_of_odd h]

theorem loadImage_of_too_long {origin : Word} {ws : List Word} (h : 65536 - origin.toNat < ws.length) :
    loadImage (imageBytes (origin :: ws)) = .error .badFile := by
  rw [loadImage, imageWords_imageBytes]
  exact if_neg (Nat.not_le.mpr h)

/-- A first image that does not load refuses the launch with the loader's error (R211). -/
theorem launch_of_load_error {cfg : Config} {startPc : Option Word} {bytes : List Byte} {rest : List ImageSource}
    {inp : List Byte} {e : Error} (h : loadImage bytes = .error e) :
    launch cfg startPc (.stream bytes false :: rest) inp = .error e := by
  simp [launch, h]

/-- Settles O59: the launch by its first path, and each image the loader refuses. -/
theorem refusedLaunches : Obligations.RefusedLaunches := by
  refine fun cfg startPc rest inp => ⟨rfl, fun _ _ => rfl, fun _ => rfl, fun bytes hshort => ?_,
    fun bytes hodd => launch_of_load_error (loadImage_of_odd hodd),
    fun origin ws hlong => launch_of_load_error (loadImage_of_too_long hlong)⟩
  match bytes with
  | [] => rfl
  | [_] => exact launch_of_load_error (loadImage_of_odd rfl)
  | _ :: _ :: _ => exact absurd hshort (by simp)

/-- Settles O60: neither OPEN status is zero, and an accepted launch is Running. -/
theorem exitStatusOfEachEnd : Obligations.ExitStatusOfEachEnd := by
  refine ⟨rfl, ⟨_, rfl, NonZero.toInt_ne_zero _⟩, rfl, fun e => ⟨_, rfl, Error.exitStatus_ne_zero e⟩,
    fun cfg startPc images inp => ⟨fun e h => ?_, fun s h => ?_⟩, fun _ _ => rfl⟩
  · rw [h]
    exact ⟨_, launchExitStatus_error e, Error.exitStatus_ne_zero e⟩
  · rw [h, launchExitStatus_ok, launch_ok_status h, exitStatus]

/-! ### Numbers -/

theorem knownVector_iff : ∀ v : BitVec 8, knownVector v = true ↔ 0x20 ≤ v.toNat ∧ v.toNat ≤ 0x25 := by
  decide

/-- Settles O9: each slot's read and store, and the numbers as defined. -/
theorem slotFlagAndVectorNumbers : Obligations.SlotFlagAndVectorNumbers :=
  ⟨fun s r v => ⟨getSlot_reg s r, setSlot_reg s r v⟩,
    fun s v => ⟨getSlot_pc s, getSlot_cond s, getSlot_count s, setSlot_pc s v, setSlot_cond s v, setSlot_count s v⟩,
    rfl, rfl, rfl, rfl, rfl, rfl, rfl, rfl, rfl, knownVector_iff⟩

end Sys2Proof.Machine
end
